-- ==== Sys2Proof/Word.lean ====
section
/-! DEFINITION. The words of temporal_blend_unit (spec/30_encoding.md R60, R73; spec/00_scope.md R5, R8), the three
colour channels and a value per channel. -/

namespace Sys2Proof

/-- One entry of `LUT` or `RES`, and every 16-bit intensity (R5, R73). -/
abbrev Word := BitVec 16

/-- One source or output channel value (R5, R73). -/
abbrev Byte := BitVec 8

/-- One interpolation weight: 25 bits wide (R5, spec/90_conflicts.md C1). -/
abbrev Weight := BitVec 25

/-- A request word `REQ` (R60). -/
abbrev Request := BitVec 160

/-- A response word `RSP` (R60, R65). -/
abbrev Response := BitVec 24

/-- The three colour channels of a pixel (R5 `NCH`, R10). -/
inductive Channel where
  | red
  | green
  | blue
  deriving DecidableEq, Repr

/-- One value per channel, in the order red, green, blue (R61, R64). -/
structure PerChannel (α : Type) where
  red : α
  green : α
  blue : α
  deriving DecidableEq, Repr

/-- A source pixel: three unsigned bytes (R64, R73). -/
abbrev Pixel := PerChannel Byte

/-- The value of channel `c`. -/
def PerChannel.get {α : Type} (t : PerChannel α) : Channel → α
  | .red => t.red
  | .green => t.green
  | .blue => t.blue

end Sys2Proof
end

