-- ==== Sys2Proof/Syntax.lean ====
section
/-! DEFINITION. The operations of temporal_blend_unit, one constructor per row of spec/opcode_table.json. -/

namespace Sys2Proof

/-- A decoded request. Every operand has exactly its field's width, and a channel has no fourth value, so every term
is an operation some request word encodes (spec/30_encoding.md R61, R62, R64). -/
inductive Instr where
  /-- UPDATE: blend, calibrate, inject, quantize and feed back the error for one pixel (R61, R120). -/
  | update (slot : Word) (icPrev icNext : Weight) (prev next : Pixel)
  /-- INTERP: the calibration interpolator alone (R62, R81). -/
  | interp (ch : Channel) (arg : Word)
  deriving DecidableEq, Repr

end Sys2Proof
end

