-- ==== Sys2Proof/Decode.lean ====
section
/-! DEFINITION. From request words to operations and back (spec/30_encoding.md R60 to R68), and the decoder on the
numbers of spec/opcode_table.json. -/

namespace Sys2Proof

/-- Which condition of R67 makes a request word reserved. -/
inductive Reserved where
  /-- `op` is 0 or 3 to 15. -/
  | opCode
  /-- `op` is 1 and a must-be-zero field of format `U` is not zero. -/
  | paddingU
  /-- `op` is 2 and a must-be-zero field of format `I` is not zero. -/
  | paddingI
  /-- `op` is 2 and `ch` is 3. -/
  | channel
  deriving DecidableEq, Repr

/-- The decoder's verdict on a request word (R67, R68). -/
inductive Verdict where
  | op (i : Instr)
  | invalid (why : Reserved)
  deriving DecidableEq, Repr

/-- The five 32-bit words of a request, `W0` most significant (R60). -/
def requestOfWords (w0 w1 w2 w3 w4 : BitVec 32) : Request := w0 ++ w1 ++ w2 ++ w3 ++ w4

/-- The channel a `ch` field names; code 3 names none (R62, R64). -/
def channelOfCode (code : BitVec 2) : Option Channel :=
  if code = 0#2 then some .red
  else if code = 1#2 then some .green
  else if code = 2#2 then some .blue
  else none

/-- The `ch` field of a channel (R64). -/
def codeOfChannel : Channel → BitVec 2
  | .red => 0#2
  | .green => 1#2
  | .blue => 2#2

/-- A pixel from its three bytes at bits 23:0 of a 32-bit word, red most significant (R61). -/
def pixelAt (q : Request) (lo : Nat) : Pixel :=
  ⟨q.extractLsb' (lo + 16) 8, q.extractLsb' (lo + 8) 8, q.extractLsb' lo 8⟩

/-- The must-be-zero fields of format `U` are all zero (R61, R68). -/
def paddingUZero (q : Request) : Bool :=
  q.extractLsb' 144 12 = 0#12 && q.extractLsb' 121 7 = 0#7 && q.extractLsb' 89 7 = 0#7 &&
    q.extractLsb' 56 8 = 0#8 && q.extractLsb' 24 8 = 0#8

/-- The must-be-zero fields of format `I` are all zero (R62, R68). -/
def paddingIZero (q : Request) : Bool :=
  q.extractLsb' 146 10 = 0#10 && q.extractLsb' 0 128 = 0#128

/-- Format `U` (R61). -/
def decodeU (q : Request) : Verdict :=
  if paddingUZero q then
    .op (.update (q.extractLsb' 128 16) (q.extractLsb' 96 25) (q.extractLsb' 64 25) (pixelAt q 32) (pixelAt q 0))
  else .invalid .paddingU

/-- Format `I` (R62). -/
def decodeI (q : Request) : Verdict :=
  if paddingIZero q then
    match channelOfCode (q.extractLsb' 144 2) with
    | some ch => .op (.interp ch (q.extractLsb' 128 16))
    | none => .invalid .channel
  else .invalid .paddingI

/-- Decoding, total on every request word (R63, R68). -/
def decode (q : Request) : Verdict :=
  if q.extractLsb' 156 4 = 1#4 then decodeU q
  else if q.extractLsb' 156 4 = 2#4 then decodeI q
  else .invalid .opCode

/-- Encoding, the inverse of `decode`: each operand in its field and zeros elsewhere (R61, R62, R68). -/
def encode : Instr → Request
  | .update slot icPrev icNext prev next =>
    requestOfWords (1#4 ++ 0#12 ++ slot) (0#7 ++ icPrev) (0#7 ++ icNext)
      (0#8 ++ prev.red ++ prev.green ++ prev.blue) (0#8 ++ next.red ++ next.green ++ next.blue)
  | .interp ch arg => requestOfWords (2#4 ++ 0#10 ++ codeOfChannel ch ++ arg) 0#32 0#32 0#32 0#32

/-- The mask of the operation's row in spec/opcode_table.json (R68). -/
def Instr.mask : Instr → Request
  | .update .. => requestOfWords 0xFFFF0000#32 0xFE000000#32 0xFE000000#32 0xFF000000#32 0xFF000000#32
  | .interp .. => requestOfWords 0xFFFC0000#32 0xFFFFFFFF#32 0xFFFFFFFF#32 0xFFFFFFFF#32 0xFFFFFFFF#32

/-- The match value of the operation's row in spec/opcode_table.json (R68). -/
def Instr.matchValue : Instr → Request
  | .update .. => requestOfWords 0x10000000#32 0#32 0#32 0#32 0#32
  | .interp .. => requestOfWords 0x20000000#32 0#32 0#32 0#32 0#32

/-- The request whose bits are `w`, numbered as spec/opcode_table.json numbers them: one word of 160 bits, bit 0 its
least significant, every bit at or above `nbits` zero (log entry 5). -/
def tableRequest (nbits w : Nat) : Request := BitVec.ofNat 160 (w % 2 ^ nbits)

/-- What the decoder reads from the request whose bits are `w`; `none` where it refuses. -/
def decodeTableWord (nbits w : Nat) : Option Instr :=
  match decode (tableRequest nbits w) with
  | .op i => some i
  | .invalid _ => none

end Sys2Proof
end

