-- ==== Sys2Proof/Config.lean ====
section
/-! DEFINITION. What is fixed for the machine: the constants of spec/00_scope.md R5 and R6, the decided parameter
`N_LANES` and the open parameter `N_SLOTS` (R7). No register holds any of them (R28). -/

namespace Sys2Proof

/-- R5 `LUT_N`: entries per channel in the calibration table, indexed 0 to 256. -/
def Config.lutN : Nat := 257

/-- R5 `NCH`: colour channels per pixel. -/
def Config.nch : Nat := 3

/-- R5 `W_UNIT`: what `icPrev + icNext` must equal (R6, R91). -/
def Config.wUnit : Nat := 0x1010000

/-- R5 `BLEND_SHIFT`: the right shift after the blend multiply-add (R6). -/
def Config.blendShift : Nat := 16

/-- R5 `ALPHA_W`: the width of the interpolation fraction. -/
def Config.alphaW : Nat := 8

/-- R5 `ROUND_BIAS`: added before the clamp in the quantizer. -/
def Config.roundBias : Int := 0x80

/-- The largest 16-bit intensity, the upper end of the quantizer's clamp (R5 `INT_W`, R101). -/
def Config.maxIntensity : Int := 0xFFFF

/-- R5 `OUT_SHIFT`: takes the top 8 bits of the clamped 16-bit value. -/
def Config.outShift : Nat := 8

/-- R5 `EXPAND`: maps an 8-bit value to its 16-bit equivalent. -/
def Config.expand : Nat := 257

/-- R7 `N_LANES`: operations in progress at once, 1 in this spec (spec/92_eei_decisions.md D3). -/
def Config.nLanes : Nat := 1

/-- The free part of `N_SLOTS`: one less than the number of residual slots (R7, spec/92_eei_decisions.md D2, log
entry 1). It has no body, so no proof can use a particular number of slots. -/
opaque Config.nSlotsLessOne : Fin 65536

/-- R7 `N_SLOTS`: the number of residual slots, open, 1 to 65536. -/
def Config.nSlots : Nat := Config.nSlotsLessOne.val + 1

end Sys2Proof
end

