-- ==== Sys2Proof/WellFormed.lean ====
section
/-! DEFINITION. The contract an operation keeps, as a check (spec/43_pixel_update.md R122, conditions 2 and 3;
spec/20_memory.md R54, duties H2 and H6). That a request's fields are encodable needs no check: the operand types of
`Instr` hold nothing else. A request that breaks this contract still decodes (R67); its meaning refuses it (R122). -/

namespace Sys2Proof

/-- R122 condition 2: the slot exists. -/
def slotInRange (nSlots : Nat) (slot : Word) : Bool := decide (slot.toNat < nSlots)

/-- R122 condition 3: the two weights add up to `W_UNIT` (R91). -/
def weightsSum (icPrev icNext : Weight) : Bool := decide (icPrev.toNat + icNext.toNat = Config.wUnit)

/-- The operation keeps the contract of R122, on a block with `nSlots` slots. -/
def Instr.wellFormed (nSlots : Nat) : Instr → Bool
  | .update slot icPrev icNext _ _ => slotInRange nSlots slot && weightsSum icPrev icNext
  | .interp _ _ => true

end Sys2Proof
end

