-- ==== Sys2Proof/Machine/State.lean ====
section
/-! DEFINITION. The state of the machine, the reasons a step can stop, and the state after reset
(spec/10_state.md R20, R30; spec/60_exceptions.md R131; spec/70_reset_and_hazards.md R151). -/

namespace Sys2Proof.Machine

/-- One 16-bit entry at a linear address. The unit of addressing is one entry; nothing is addressed by bytes
(spec/20_memory.md R40, R43, log entry 6). -/
abbrev Entry := Nat × Word

/-- The listed entries of one address space: addresses strictly rising (`Memory.wf`). -/
abbrev Memory := List Entry

/-- The two address spaces (R40). -/
inductive Space where
  | lut
  | res
  deriving DecidableEq, Repr

/-- What happens next outside the block, one element per step: the steps of the host (spec/00_scope.md R11,
spec/20_memory.md R48) and the reset event (spec/70_reset_and_hazards.md R150). Addresses are the host port's linear
addresses (R41, R42). -/
inductive Event where
  /-- A request on the operation port (R60). -/
  | request (q : Request)
  /-- `HostLutWrite` at a linear address (R41, R48). -/
  | lutWrite (addr : Nat) (v : Word)
  /-- `HostLutRead` at a linear address (R41, R48). -/
  | lutRead (addr : Nat)
  /-- `HostResWrite` at a linear address; `v` is the two's-complement pattern (R42, R48, R73). -/
  | resWrite (addr : Nat) (v : Word)
  /-- `HostResRead` at a linear address (R42, R48). -/
  | resRead (addr : Nat)
  /-- The host reads the oldest response it has not yet read (R11, log entry 9). -/
  | readResponse
  /-- Reset (R150). -/
  | reset
  deriving DecidableEq, Repr

/-- One value the host has read: a response, or an entry of one of the two spaces (R11, R48). -/
inductive HostValue where
  | response (w : Response)
  | lutEntry (v : Word)
  | residual (v : Word)
  deriving DecidableEq, Repr

/-- The machine. `res` and `lut` are the architectural state of the block, and all of it (R20). The other three fields
are the model's own: what the host has yet to do, and what it has been given and has read (R13, log entries 2, 9). -/
structure State where
  /-- The residual store: the entries that are not 0, by linear address (R21, R42). -/
  res : Memory
  /-- The calibration memory: the defined entries, by linear address (R23, R31, R41). -/
  lut : Memory
  /-- What the host does next, in the order it issues it (R26). -/
  stream : List Event
  /-- Response words delivered and not yet read by the host, oldest first (R13, R158). -/
  responses : List Response
  /-- What the host has read, oldest first (R11, R48). -/
  observed : List HostValue
  deriving DecidableEq, Repr

/-- Why the machine stops with a fault. -/
inductive Fault where
  /-- `fault(LutUndefined)`: raised by UPDATE and INTERP when they read a table entry no host write has defined since
  reset (R31, R131). SAFE: the hardware would deliver some word and go on; the model says nothing of it (log entry 7). -/
  | lutUndefined
  deriving DecidableEq, Repr

/-- Why the machine gives a step no meaning: the closed list of R131, less the two reasons that need several lanes or
split operations (log entry 11), and `notModelled`, which the host's interface asks for and no step raises. -/
inductive Refusal where
  /-- An instruction without a meaning, named by its mnemonic; raised by `exec` only, and by no arm now. SAFE. -/
  | notModelled (mnemonic : String)
  /-- `refuse(ReservedEncoding)`: raised by a request whose word decodes to invalid (R67, R131). SAFE (log entry 8). -/
  | reservedEncoding (why : Reserved)
  /-- `refuse(SlotOutOfRange)`: raised by UPDATE with `slot >= N_SLOTS` (R44, R122). SAFE (log entry 8). -/
  | slotOutOfRange
  /-- `refuse(WeightSum)`: raised by UPDATE with `icPrev + icNext != W_UNIT` (R96, R122). SAFE (log entry 8). -/
  | weightSum
  /-- `refuse(HostAddressOutOfRange)`: raised by a host access outside the space (R44). SAFE (log entry 8). -/
  | hostAddressOutOfRange
  /-- `refuse(HostReadUndefined)`: raised by a host read of an undefined table entry (R48). SAFE (log entry 8). -/
  | hostReadUndefined
  deriving DecidableEq, Repr

/-- How one step ends. -/
abbrev Outcome := Host.Outcome State Fault Refusal

/-- `s` with another residual store. -/
def State.setRes (s : State) (m : Memory) : State := { s with res := m }

/-- `s` with another calibration memory. -/
def State.setLut (s : State) (m : Memory) : State := { s with lut := m }

/-- `s` with other host steps ahead. -/
def State.setStream (s : State) (es : List Event) : State := { s with stream := es }

/-- `s` with other responses waiting for the host. -/
def State.setResponses (s : State) (ws : List Response) : State := { s with responses := ws }

/-- `s` with another record of what the host has read. -/
def State.setObserved (s : State) (vs : List HostValue) : State := { s with observed := vs }

/-- The machine right after reset: every residual 0, every table entry undefined (R30, R151), and nothing yet asked,
delivered or read (log entry 16). -/
def State.reset : State := ⟨[], [], [], [], []⟩

end Sys2Proof.Machine
end

