-- ==== Sys2Proof/Machine/Operands.lean ====
section
/-! DEFINITION. Operand forms and addresses: channel codes, the linear addresses of the two spaces, and the readings
of stored and responded words (spec/20_memory.md R41, R42, R45; spec/30_encoding.md R64, R66). -/

namespace Sys2Proof.Machine

/-- `code(c)`: red 0, green 1, blue 2 (R64). -/
def code (c : Channel) : Nat := (codeOfChannel c).toNat

/-- The linear address of `LUT[c][i]` (R41). -/
def lutAddr (c : Channel) (i : Nat) : Nat := Config.lutN * code c + i

/-- The linear address of `RES[s][c]` (R42). -/
def resAddr (slot : Nat) (c : Channel) : Nat := Config.nch * slot + code c

/-- How many entries a space has, on a block with `nSlots` slots (R41, R42). -/
def Space.size (nSlots : Nat) : Space → Nat
  | .lut => Config.nch * Config.lutN
  | .res => Config.nch * nSlots

/-- What an unlisted entry reads as: nothing in `LUT`, where it is undefined (R31), and 0 in `RES` (R30). -/
def Space.unlisted : Space → Option Word
  | .lut => none
  | .res => some 0#16

/-- `toS16(i)`: the 16-bit two's-complement pattern (R9, R73). -/
def toS16 (i : Int) : Word := BitVec.ofInt 16 i

/-- `zext_24` of an intensity: the response of INTERP (R66). -/
def zext24 (v : Word) : Response := v.setWidth 24

end Sys2Proof.Machine
end

