-- ==== Sys2Proof/Machine/Ops.lean ====
section
/-! DEFINITION. The named operations over the two memories and the host's side: `MemRead` and `MemWrite` of
spec/00_scope.md R10, reads and writes of `LUT` and `RES` entries (spec/20_memory.md R41 to R45), and delivering a
response (spec/00_scope.md R12). The block takes no exception and has no return from one (spec/60_exceptions.md R130,
R134, R135), so there is no operation for either. -/

namespace Sys2Proof.Machine

/-- The listed entry at address `a`. -/
def Memory.find : Memory → Nat → Option Word
  | [], _ => none
  | (b, w) :: m, a => if b = a then some w else Memory.find m a

/-- `m` with the entry at `a` listed as `v`, in its place by address. -/
def Memory.put : Memory → Nat → Word → Memory
  | [], a, v => [(a, v)]
  | (b, w) :: m, a, v =>
    if a < b then (a, v) :: (b, w) :: m
    else if a = b then (a, v) :: m
    else (b, w) :: Memory.put m a v

/-- `m` with no entry at `a`. -/
def Memory.drop : Memory → Nat → Memory
  | [], _ => []
  | (b, w) :: m, a => if b = a then Memory.drop m a else (b, w) :: Memory.drop m a

/-- Every address of `m` is at least `lo`, and the addresses rise strictly. -/
def Memory.rising : Memory → Nat → Bool
  | [], _ => true
  | (b, _) :: m, lo => decide (lo ≤ b) && Memory.rising m (b + 1)

/-- Every listed entry lies inside the space and differs from what an unlisted one reads as. -/
def Memory.needed (sp : Space) (nSlots : Nat) : Memory → Bool
  | [] => true
  | (b, w) :: m => decide (b < sp.size nSlots) && decide (sp.unlisted ≠ some w) && Memory.needed sp nSlots m

/-- The canonical form of one space's memory: equal contents are equal lists. -/
def Memory.wf (sp : Space) (nSlots : Nat) (m : Memory) : Bool := m.rising 0 && m.needed sp nSlots

/-- `MemRead(space, addr, 16)` (R10, R45); `none` is an undefined entry (R31). -/
def Memory.read (sp : Space) (m : Memory) (a : Nat) : Option Word :=
  match m.find a with
  | some w => some w
  | none => sp.unlisted

/-- `MemWrite(space, addr, 16, v)` (R10, R45): an entry that reads as an unlisted one does is not listed. -/
def Memory.write (sp : Space) (m : Memory) (a : Nat) (v : Word) : Memory :=
  if sp.unlisted = some v then m.drop a else m.put a v

/-- The entry of `LUT` at a linear address; `none` where it is undefined (R31, R41). -/
def State.lutAt (s : State) (a : Nat) : Option Word := s.lut.read .lut a

/-- The entry of `RES` at a linear address (R42). -/
def State.resAt (s : State) (a : Nat) : Word := (s.res.read .res a).getD 0#16

/-- `LUT[c][i]`; `none` where it is undefined (R10, R23, R31). -/
def State.readLut (s : State) (c : Channel) (i : Nat) : Option Word := s.lutAt (lutAddr c i)

/-- `RES[slot][c]`, as its 16-bit pattern (R10, R21). -/
def State.readRes (s : State) (slot : Nat) (c : Channel) : Word := s.resAt (resAddr slot c)

/-- `LUT` written at a linear address (R48). -/
def State.writeLutAt (s : State) (a : Nat) (v : Word) : State := s.setLut (s.lut.write .lut a v)

/-- `RES` written at a linear address (R48). -/
def State.writeResAt (s : State) (a : Nat) (v : Word) : State := s.setRes (s.res.write .res a v)

/-- `RES[slot][c] <- v` (R10, R104). -/
def State.writeRes (s : State) (slot : Nat) (c : Channel) (v : Word) : State := s.writeResAt (resAddr slot c) v

/-- All three residuals of a slot written (R104, R120). -/
def State.writeSlot (s : State) (slot : Nat) (v : PerChannel Word) : State :=
  ((s.writeRes slot .red v.red).writeRes slot .green v.green).writeRes slot .blue v.blue

/-- `RSP <- w`: the response is delivered to the host (R12, R60). -/
def State.respond (s : State) (w : Response) : State := s.setResponses (s.responses ++ [w])

/-- The host is given a value it asked for (R48). -/
def State.observe (s : State) (v : HostValue) : State := s.setObserved (s.observed ++ [v])

/-- Both memories are in canonical form, on a block with `nSlots` slots. -/
def State.memWf (nSlots : Nat) (s : State) : Bool := s.lut.wf .lut nSlots && s.res.wf .res nSlots

end Sys2Proof.Machine
end

