-- ==== Sys2Proof/Machine/Blend.lean ====
section
/-! DEFINITION. The temporal blend stage, step 1 of UPDATE (spec/41_temporal_blend.md R90, R97). -/

namespace Sys2Proof.Machine

/-- `acc = p * icPrev + n * icNext`, exact (R90). -/
def blendAcc (p n : Byte) (icPrev icNext : Weight) : Nat := p.toNat * icPrev.toNat + n.toNat * icNext.toNat

/-- `blend(p, n, icPrev, icNext)`, exact (R90). -/
def blend (p n : Byte) (icPrev icNext : Weight) : Nat := blendAcc p n icPrev icNext >>> Config.blendShift

/-- The blended intensity as a 16-bit word. Under the weight contract it is exact (R92); no meaning uses it where the
contract is broken (R122, log entry 18). -/
def blendWord (p n : Byte) (icPrev icNext : Weight) : Word := BitVec.ofNat 16 (blend p n icPrev icNext)

end Sys2Proof.Machine
end

