-- ==== Sys2Proof/Machine/Interp.lean ====
section
/-! DEFINITION. The calibration interpolator and the operation INTERP (spec/40_calibration_interpolator.md R80, R81). -/

namespace Sys2Proof.Machine

/-- `index = a >> 8` (R80). -/
def tableIndex (a : Word) : Nat := a.toNat >>> Config.alphaW

/-- `alpha = a & 0xFF` (R80). -/
def tableAlpha (a : Word) : Nat := a.toNat % 2 ^ Config.alphaW

/-- `sum = lo * (256 - alpha) + hi * alpha`, exact (R80). -/
def interpSum (lo hi : Word) (alpha : Nat) : Nat :=
  lo.toNat * (2 ^ Config.alphaW - alpha) + hi.toNat * alpha

/-- `result = sum >> 8` (R80); it fits 16 bits for every `alpha` up to 256 (R82). -/
def interpResult (lo hi : Word) (alpha : Nat) : Word := BitVec.ofNat 16 (interpSum lo hi alpha >>> Config.alphaW)

/-- `interp(t, a)` for a table given as a function of the index (R80). -/
def interp (t : Nat → Word) (a : Word) : Word :=
  interpResult (t (tableIndex a)) (t (tableIndex a + 1)) (tableAlpha a)

/-- `interp(LUT[c], a)`; `none` where one of the two entries it reads is undefined, also when `alpha` is 0
(R31, R46, R81). -/
def State.interpAt (s : State) (c : Channel) (a : Word) : Option Word :=
  match s.readLut c (tableIndex a), s.readLut c (tableIndex a + 1) with
  | some lo, some hi => some (interpResult lo hi (tableAlpha a))
  | _, _ => none

/-- INTERP (R81). -/
def execInterp (ch : Channel) (arg : Word) (s : State) : Outcome :=
  match s.interpAt ch arg with
  | some v => .next (s.respond (zext24 v))
  | none => .fault .lutUndefined

end Sys2Proof.Machine
end

