-- ==== Sys2Proof/Machine/Quantizer.lean ====
section
/-! DEFINITION. Residual injection, the saturating quantizer, error feedback and packing, steps 3 to 6 of UPDATE
(spec/42_quantizer_error_feedback.md R100 to R104, R110). All arithmetic is on integers; the only clamp is the
quantizer's (R111). -/

namespace Sys2Proof.Machine

/-- `clamp(v, lo, hi)` (R9). -/
def clamp (v lo hi : Int) : Int := if v < lo then lo else if hi < v then hi else v

/-- INJECT: `x = v + r`, the residual read as signed (R45, R100). -/
def inject (v r : Word) : Int := v.toNat + r.toInt

/-- QUANT: bias, then clamp, then the top 8 bits (R101, R102). -/
def quantize (x : Int) : Byte :=
  BitVec.ofNat 8 ((clamp (x + Config.roundBias) 0 Config.maxIntensity).toNat >>> Config.outShift)

/-- RESID: `r' = x - o * 257`, from the value before bias and clamp (R103). -/
def newResidual (x : Int) (o : Byte) : Int := x - o.toNat * Config.expand

/-- What one channel yields: the output byte and the residual to store. -/
structure Lane where
  out : Byte
  res : Word
  deriving DecidableEq, Repr

/-- INJECT, QUANT, RESID and the 16-bit pattern to write back, for one channel (R100 to R104). -/
def quantLane (v r : Word) : Lane :=
  ⟨quantize (inject v r), toS16 (newResidual (inject v r) (quantize (inject v r)))⟩

/-- PACK: `(o_G << 16) | (o_R << 8) | o_B` (R65, R110). -/
def pack (o : PerChannel Byte) : Response :=
  (o.green.setWidth 24 <<< 16) ||| (o.red.setWidth 24 <<< 8) ||| o.blue.setWidth 24

end Sys2Proof.Machine
end

