-- ==== Sys2Proof/Machine/Update.lean ====
section
/-! DEFINITION. The operation UPDATE (spec/43_pixel_update.md R120 to R126). -/

namespace Sys2Proof.Machine

/-- One channel of UPDATE up to its results, nothing written yet: BLEND, INTERP, then the quantizer with the slot's
residual; `none` where the interpolator reads an undefined entry (R120, R121). -/
def State.updateLane (s : State) (slot : Word) (icPrev icNext : Weight) (prev next : Pixel) (c : Channel) :
    Option Lane :=
  match s.interpAt c (blendWord (prev.get c) (next.get c) icPrev icNext) with
  | some v => some (quantLane v (s.readRes slot.toNat c))
  | none => none

/-- The commit of UPDATE: the three residuals and the response (R104, R110, R120). -/
def State.commit (s : State) (slot : Word) (l : PerChannel Lane) : State :=
  (s.writeSlot slot.toNat ⟨l.red.res, l.green.res, l.blue.res⟩).respond
    (pack ⟨l.red.out, l.green.out, l.blue.out⟩)

/-- UPDATE on a block with `nSlots` slots, the contract checked in the order of R122. -/
def updateWith (nSlots : Nat) (slot : Word) (icPrev icNext : Weight) (prev next : Pixel) (s : State) : Outcome :=
  if slotInRange nSlots slot = false then .refused .slotOutOfRange
  else if weightsSum icPrev icNext = false then .refused .weightSum
  else
    match s.updateLane slot icPrev icNext prev next .red, s.updateLane slot icPrev icNext prev next .green,
      s.updateLane slot icPrev icNext prev next .blue with
    | some r, some g, some b => .next (s.commit slot ⟨r, g, b⟩)
    | _, _, _ => .fault .lutUndefined

/-- UPDATE (R120). -/
def execUpdate (slot : Word) (icPrev icNext : Weight) (prev next : Pixel) (s : State) : Outcome :=
  updateWith Config.nSlots slot icPrev icNext prev next s

end Sys2Proof.Machine
end

