-- ==== Sys2Proof/Machine/Dispatch.lean ====
section
/-! DEFINITION. The meaning of each operation, one arm per constructor. -/

namespace Sys2Proof.Machine

def exec (i : Instr) (s : State) : Host.Outcome State Fault Refusal :=
  match i with
  | .update slot icPrev icNext prev next => Sys2Proof.Machine.execUpdate slot icPrev icNext prev next s
  | .interp ch arg => Sys2Proof.Machine.execInterp ch arg s

end Sys2Proof.Machine
end

