-- ==== Sys2Proof/Machine/HostPort.lean ====
section
/-! DEFINITION. What each event does: a request (spec/30_encoding.md R67, R68), the four host accesses
(spec/20_memory.md R44, R48), the host's read of a response (spec/00_scope.md R11) and reset
(spec/70_reset_and_hazards.md R150, R151). -/

namespace Sys2Proof.Machine

/-- A request: the decoded operation runs, a reserved word is refused (R67, R68). -/
def onRequest (q : Request) (s : State) : Outcome :=
  match decode q with
  | .op i => exec i s
  | .invalid why => .refused (.reservedEncoding why)

/-- `HostLutWrite` (R44, R48). -/
def hostLutWrite (nSlots a : Nat) (v : Word) (s : State) : Outcome :=
  if a < Space.size nSlots .lut then .next (s.writeLutAt a v) else .refused .hostAddressOutOfRange

/-- `HostLutRead` (R44, R48). -/
def hostLutRead (nSlots a : Nat) (s : State) : Outcome :=
  if a < Space.size nSlots .lut then
    match s.lutAt a with
    | some v => .next (s.observe (.lutEntry v))
    | none => .refused .hostReadUndefined
  else .refused .hostAddressOutOfRange

/-- `HostResWrite` (R44, R48). -/
def hostResWrite (nSlots a : Nat) (v : Word) (s : State) : Outcome :=
  if a < Space.size nSlots .res then .next (s.writeResAt a v) else .refused .hostAddressOutOfRange

/-- `HostResRead` (R44, R48). -/
def hostResRead (nSlots a : Nat) (s : State) : Outcome :=
  if a < Space.size nSlots .res then .next (s.observe (.residual (s.resAt a)))
  else .refused .hostAddressOutOfRange

/-- The host reads the oldest response it has not read; where none is waiting it is given nothing, and nothing else
happens (R11; log entry 9). -/
def hostReadResponse (s : State) : Outcome :=
  match s.responses with
  | w :: ws => .next ((s.setResponses ws).observe (.response w))
  | [] => .next s

/-- Reset of the block: every residual 0, every table entry undefined; the host keeps what it has and what it is about
to do (R150, R151, log entry 15). -/
def resetBlock (s : State) : State := (s.setRes State.reset.res).setLut State.reset.lut

/-- What one event does, on a block with `nSlots` slots. -/
def runEvent (nSlots : Nat) (e : Event) (s : State) : Outcome :=
  match e with
  | .request q => onRequest q s
  | .lutWrite a v => hostLutWrite nSlots a v s
  | .lutRead a => hostLutRead nSlots a s
  | .resWrite a v => hostResWrite nSlots a v s
  | .resRead a => hostResRead nSlots a s
  | .readResponse => hostReadResponse s
  | .reset => .next (resetBlock s)

/-- One step: the next event happens; where there is none the block is idle (R26, R151, log entry 2). -/
def advance (s : State) : Outcome :=
  match s.stream with
  | [] => .next s
  | e :: es => runEvent Config.nSlots e (s.setStream es)

end Sys2Proof.Machine
end

