-- ==== Sys2Proof/Machine/Step.lean ====
section
/-! DEFINITION. The machine's step, and a request placed where the step takes its next one. -/

namespace Sys2Proof.Machine

/-- One step of the machine (spec/00_scope.md R11 to R13). -/
def step (s : State) : Host.Outcome State Fault Refusal := advance s

/-- `s` with the request whose bits are `w` as the next thing the host issues, so that the very next step runs it
(log entry 4). -/
def State.withFetchWord (s : State) (nbits w : Nat) : State :=
  s.setStream (.request (tableRequest nbits w) :: s.stream)

end Sys2Proof.Machine
end

