-- ==== Sys2Proof/Machine/Directives.lean ====
section
/-! DEFINITION. Assembly lines and the events they stand for (spec/30_encoding.md R70 to R72), and the textual form of
the two operations (R70). -/

namespace Sys2Proof.Machine

/-- One line of a request stream: an operation (R70) or a directive (R71). -/
inductive AsmLine where
  /-- One of the two operations. -/
  | op (i : Instr)
  /-- `.lut ch, i, v`. -/
  | lut (ch : Channel) (i : Fin 257) (v : Word)
  /-- `.lutf ch, name`: the table's 257 entries in order. -/
  | lutf (ch : Channel) (table : Vector Word 257)
  /-- `.res s<slot>, (r,g,b)`, each value as its two's-complement pattern (R73). -/
  | res (slot : Nat) (v : PerChannel Word)
  /-- `.rdres s<slot>`. -/
  | rdres (slot : Nat)
  deriving DecidableEq, Repr

/-- The events a line stands for (R71); an operation is one request. -/
def assemble : AsmLine → List Event
  | .op i => [.request (encode i)]
  | .lut ch i v => [.lutWrite (lutAddr ch i.val) v]
  | .lutf ch table => (List.range 257).map fun i => .lutWrite (lutAddr ch i) (table.toList.getD i 0#16)
  | .res slot v =>
    [.resWrite (resAddr slot .red) v.red, .resWrite (resAddr slot .green) v.green,
      .resWrite (resAddr slot .blue) v.blue]
  | .rdres slot => [.resRead (resAddr slot .red), .resRead (resAddr slot .green), .resRead (resAddr slot .blue)]

/-- The events of a whole request stream, one line after another (R70). -/
def assembleAll (ls : List AsmLine) : List Event := ls.flatMap assemble

/-- A pixel as the assembler writes it (R70). -/
def pixelText (p : Pixel) : String :=
  "(" ++ toString p.red.toNat ++ "," ++ toString p.green.toNat ++ "," ++ toString p.blue.toNat ++ ")"

/-- A channel as the assembler writes it (R70). -/
def channelText : Channel → String
  | .red => "r"
  | .green => "g"
  | .blue => "b"

/-- An operation as the assembler writes it, every number in decimal (R70). -/
def asmText : Instr → String
  | .update slot icPrev icNext prev next =>
    "UPDATE s" ++ toString slot.toNat ++ ", " ++ toString icPrev.toNat ++ ", " ++ toString icNext.toNat ++ ", " ++
      pixelText prev ++ ", " ++ pixelText next
  | .interp ch arg => "INTERP " ++ channelText ch ++ ", " ++ toString arg.toNat

end Sys2Proof.Machine
end

