-- ==== Sys2Proof/Machine/Assembler.lean ====
section
/-! DEFINITION. Reading a request stream from text (spec/30_encoding.md R70 to R72; log entry 21), with the named
tables a `.lutf` line may use (spec/95_test_vectors.md section 2). The block never sees text: a line stands for the
events of `assemble`. -/

namespace Sys2Proof.Machine

/-- A token of one line: white space separates, and the marks stand alone. -/
inductive Token where
  | word (cs : List Char)
  | comma
  | lpar
  | rpar
  deriving DecidableEq, Repr

/-- The characters gathered so far (last first), as a word before `ts`, if there are any. -/
def wordThen (acc : List Char) (ts : List Token) : List Token :=
  match acc with
  | [] => ts
  | c :: cs => .word (c :: cs).reverse :: ts

/-- The tokens of one line; `;` starts a comment (R70). -/
def tokens : List Char → List Char → List Token
  | [], acc => wordThen acc []
  | c :: cs, acc =>
    if c = ';' then wordThen acc []
    else if c = ' ' then wordThen acc (tokens cs [])
    else if c = ',' then wordThen acc (.comma :: tokens cs [])
    else if c = '(' then wordThen acc (.lpar :: tokens cs [])
    else if c = ')' then wordThen acc (.rpar :: tokens cs [])
    else tokens cs (c :: acc)

/-- The value of a digit, if `base` has it. -/
def digitValue (base : Nat) (c : Char) : Option Nat :=
  let n := c.toNat
  let d :=
    if 48 ≤ n ∧ n ≤ 57 then n - 48
    else if 97 ≤ n ∧ n ≤ 102 then n - 87
    else if 65 ≤ n ∧ n ≤ 70 then n - 55
    else base
  if d < base then some d else none

/-- The number digits write in `base`, after those that wrote `acc`. -/
def digitsValue (base : Nat) : List Char → Nat → Option Nat
  | [], acc => some acc
  | c :: cs, acc =>
    match digitValue base c with
    | some d => digitsValue base cs (acc * base + d)
    | none => none

/-- A number, decimal or `0x` hexadecimal (R70). -/
def readNat : List Char → Option Nat
  | [] => none
  | '0' :: 'x' :: c :: cs => digitsValue 16 (c :: cs) 0
  | c :: cs => digitsValue 10 (c :: cs) 0

/-- A signed number: a number, or `-` and a number (R71 `.res`). DESIGN CHOICE: R71 says signed decimal there, R70 lets
every number be hexadecimal, and the reader takes both (log entry 21). -/
def readInt : List Char → Option Int
  | '-' :: cs => (readNat cs).map fun n => -(n : Int)
  | cs => (readNat cs).map fun n => (n : Int)

/-- A number that fits `w` bits, unsigned. -/
def readBits (w : Nat) (cs : List Char) : Option (BitVec w) :=
  match readNat cs with
  | some n => if n < 2 ^ w then some (BitVec.ofNat w n) else none
  | none => none

/-- A residual as its 16-bit pattern, if it is a signed 16-bit value (R73). -/
def readResidual (cs : List Char) : Option Word :=
  match readInt cs with
  | some i => if -32768 ≤ i ∧ i ≤ 32767 then some (toS16 i) else none
  | none => none

/-- `s<slot>`: its number. -/
def readSlot : List Char → Option Nat
  | 's' :: cs => readNat cs
  | _ => none

/-- `<ch>`: r, g or b (R70). -/
def readChannel (cs : List Char) : Option Channel :=
  if cs = ['r'] then some .red else if cs = ['g'] then some .green else if cs = ['b'] then some .blue else none

/-- A table from its entries by index. -/
def tableOf (f : Nat → Nat) : Vector Word 257 :=
  ⟨((List.range 257).map fun i => BitVec.ofNat 16 (f i)).toArray, by simp⟩

/-- The tables of spec/95_test_vectors.md section 2 that have no argument. -/
def namedTable (cs : List Char) : Option (Vector Word 257) :=
  if cs = "T_LIN".toList then some (tableOf fun i => min (256 * i) 0xFFFF)
  else if cs = "T_SQ".toList then some (tableOf fun i => i * i * 0xFFFF / 65536)
  else if cs = "T_DESC".toList then some (tableOf fun i => 0xFFFF - min (256 * i) 0xFFFF)
  else if cs = "T_B".toList then some (tableOf fun i => if i = 255 then 0x1000 else if i = 256 then 0x2000 else 0)
  else none

/-- `UPDATE s<slot>, <icPrev>, <icNext>, (<prevR>,<prevG>,<prevB>), (<nextR>,<nextG>,<nextB>)` after its name (R70). -/
def readUpdate : List Token → Option AsmLine
  | [.word slot, .comma, .word icPrev, .comma, .word icNext, .comma,
      .lpar, .word pr, .comma, .word pg, .comma, .word pb, .rpar, .comma,
      .lpar, .word nr, .comma, .word ng, .comma, .word nb, .rpar] => do
    let n ← readSlot slot
    let a ← readBits 25 icPrev
    let b ← readBits 25 icNext
    let p : Pixel := ⟨← readBits 8 pr, ← readBits 8 pg, ← readBits 8 pb⟩
    let q : Pixel := ⟨← readBits 8 nr, ← readBits 8 ng, ← readBits 8 nb⟩
    if n < 2 ^ 16 then some (.op (.update (BitVec.ofNat 16 n) a b p q)) else none
  | _ => none

/-- `INTERP <ch>, <arg>` after its name (R70). -/
def readInterp : List Token → Option AsmLine
  | [.word ch, .comma, .word arg] => do some (.op (.interp (← readChannel ch) (← readBits 16 arg)))
  | _ => none

/-- `.lut <ch>, <i>, <v>` after its name (R71). -/
def readLutLine : List Token → Option AsmLine
  | [.word ch, .comma, .word i, .comma, .word v] => do
    let c ← readChannel ch
    let n ← readNat i
    let w ← readBits 16 v
    if h : n < 257 then some (.lut c ⟨n, h⟩ w) else none
  | _ => none

/-- `.lutf <ch>, <name>` after its name (R71); `T_K` takes its constant in parentheses. -/
def readLutfLine : List Token → Option AsmLine
  | [.word ch, .comma, .word name] => do some (.lutf (← readChannel ch) (← namedTable name))
  | [.word ch, .comma, .word name, .lpar, .word k, .rpar] => do
    let c ← readChannel ch
    let w ← readBits 16 k
    if name = "T_K".toList then some (.lutf c (tableOf fun _ => w.toNat)) else none
  | _ => none

/-- `.res s<slot>, (<r>,<g>,<b>)` after its name (R71). -/
def readResLine : List Token → Option AsmLine
  | [.word slot, .comma, .lpar, .word r, .comma, .word g, .comma, .word b, .rpar] => do
    some (.res (← readSlot slot) ⟨← readResidual r, ← readResidual g, ← readResidual b⟩)
  | _ => none

/-- `.rdres s<slot>` after its name (R71). -/
def readRdresLine : List Token → Option AsmLine
  | [.word slot] => do some (.rdres (← readSlot slot))
  | _ => none

/-- A line's meaning from its tokens: one of the two operations or a directive, and nothing else (R72). -/
def readTokens : List Token → Option AsmLine
  | .word name :: ts =>
    if name = "UPDATE".toList then readUpdate ts
    else if name = "INTERP".toList then readInterp ts
    else if name = ".lut".toList then readLutLine ts
    else if name = ".lutf".toList then readLutfLine ts
    else if name = ".res".toList then readResLine ts
    else if name = ".rdres".toList then readRdresLine ts
    else none
  | _ => none

/-- One line of text: the line it writes, if it writes one (R70 to R72). -/
def readLine (text : String) : Option AsmLine := readTokens (tokens text.toList [])

end Sys2Proof.Machine
end

