-- ==== Sys2Proof/Machine/Run.lean ====
section
/-! DEFINITION. A run and its marks (spec/00_scope.md R13; spec/60_exceptions.md R131; spec/70_reset_and_hazards.md
R158): a step that ends in a fault or a refusal marks the run for good, leaves the state unchanged, and the host goes on
with what it does next (log entry 20). -/

namespace Sys2Proof.Machine

/-- A mark of the model on a run: why one of its steps did not succeed (R131). -/
inductive Mark where
  | fault (r : Fault)
  | refused (r : Refusal)
  deriving DecidableEq, Repr

/-- A run so far: the machine, and the marks it has, oldest first (R131, R158). -/
structure Run where
  state : State
  marks : List Mark
  deriving DecidableEq, Repr

/-- `s` with the host past its next step, everything else unchanged (R122, R131). -/
def State.skipEvent (s : State) : State := s.setStream s.stream.tail

/-- A run from reset, of a host that does `es` (R13). -/
def Run.ofStream (es : List Event) : Run := ⟨State.reset.setStream es, []⟩

/-- The run with one more mark, its step having changed nothing but the host's place in its stream (R131, R158). -/
def Run.marked (r : Run) (m : Mark) : Run := ⟨r.state.skipEvent, r.marks ++ [m]⟩

/-- One step of a run: the machine's step, or a mark (R131). -/
def Run.advance (r : Run) : Run :=
  match Sys2Proof.Machine.step r.state with
  | .next t => ⟨t, r.marks⟩
  | .fault f => r.marked (.fault f)
  | .refused w => r.marked (.refused w)

/-- `k` steps of a run (R13). -/
def Run.steps : Nat → Run → Run
  | 0, r => r
  | k + 1, r => Run.steps k r.advance

/-- The whole run of what the host does (R158): one step for each thing it does. -/
def Run.finish (r : Run) : Run := r.steps r.state.stream.length

/-- The run is successful so far: it has no mark (R131). -/
def Run.successful (r : Run) : Bool := r.marks.isEmpty

/-- The run has ended: the host has nothing more to do and has read every response (R13, R158). -/
def Run.ended (r : Run) : Bool := r.state.stream.isEmpty && r.state.responses.isEmpty

end Sys2Proof.Machine
end

