-- ==== Sys2Proof/Safety.lean ====
section
/-! DEFINITION. The terms claims about runs are stated in: bit fields of R8, runs of operations, the residual band of
spec/10_state.md R22, and what has been delivered to the host (spec/70_reset_and_hazards.md R158). -/

namespace Sys2Proof

/-- `v[hi:lo]` of spec/00_scope.md R8, for a number: `floor(v / 2^lo) mod 2^(hi-lo+1)`. -/
def bits (v hi lo : Nat) : Nat := v / 2 ^ lo % 2 ^ (hi - lo + 1)

namespace Machine

/-- The output byte of a channel in the packed word of UPDATE (R65). -/
def outByte (c : Channel) (w : Response) : Nat :=
  match c with
  | .green => bits w.toNat 23 16
  | .red => bits w.toNat 15 8
  | .blue => bits w.toNat 7 0

/-- Operations one after another, stopping at the first that stops (R49). -/
def execAll : List Instr → State → Outcome
  | [], s => .next s
  | i :: is, s =>
    match exec i s with
    | .next t => execAll is t
    | .fault r => .fault r
    | .refused r => .refused r

/-- `k` steps of the machine, stopping at the first that stops (R13, R49): the unmarked runs. A run that goes on past
a fault or a refusal, with its marks, is `Run.steps`. -/
def runSteps : Nat → State → Outcome
  | 0, s => .next s
  | k + 1, s =>
    match step s with
    | .next t => runSteps k t
    | .fault r => .fault r
    | .refused r => .refused r

/-- The operation is an UPDATE of slot `slot`. -/
def isUpdateOf (slot : Word) : Instr → Bool
  | .update n _ _ _ _ => decide (n = slot)
  | .interp _ _ => false

/-- The calibrated intensity of channel `c` in the UPDATE `i` (`v` of R120), under the table of `s`; 0 where there is
none. -/
def calibratedOf (s : State) (c : Channel) : Instr → Int
  | .update _ icPrev icNext prev next =>
    ((s.interpAt c (blendWord (prev.get c) (next.get c) icPrev icNext)).getD 0#16).toNat
  | .interp _ _ => 0

/-- The residual band [-383, 127] of R22 and R107. -/
def inBand (v : Word) : Prop := -383 ≤ v.toInt ∧ v.toInt ≤ 127

/-- Every residual lies in the band. -/
def State.ResBand (s : State) : Prop := ∀ a, inBand (s.resAt a)

/-- The event writes no residual outside the band (R22 (c): only a host write can). -/
def Event.KeepsBand : Event → Prop
  | .resWrite _ v => inBand v
  | _ => True

/-- Every residual lies in the band and the host is not about to write one outside it. -/
def State.BandInv (s : State) : Prop := s.ResBand ∧ ∀ e ∈ s.stream, e.KeepsBand

/-- The response a value the host read is, if it is one. -/
def HostValue.response? : HostValue → Option Response
  | .response w => some w
  | .lutEntry _ => none
  | .residual _ => none

/-- Every response word delivered so far, in request order: those the host has read, then those waiting (R158). -/
def State.delivered (s : State) : List Response := s.observed.filterMap HostValue.response? ++ s.responses

end Machine

end Sys2Proof
end

