-- ==== Sys2Proof/Certificates/Slice0/Obligations.lean ====
section
/-! DEFINITION. The statements about temporal_blend_unit, from the numbered rules of spec/. Where a statement adds a
premise beyond the rule's own (the canonical form of the memories), its docstring says so. -/

open Sys2Proof Sys2Proof.Machine

/-! ### Encoding -/

/-- R68, its last sentence, first half: every operation, every operand at every value its field admits. -/
def Obligations.DecodeOfEncode : Prop :=
  ∀ i : Instr, decode (encode i) = .op i

/-- R68, its last sentence, second half: an accepted word is the encoding of what it decodes to. -/
def Obligations.EncodeOfDecode : Prop :=
  ∀ (q : Request) (i : Instr), decode q = .op i → encode i = q

/-- R61, R63, R64: a word decodes to UPDATE with these operands exactly when every field of format `U` says so. -/
def Obligations.UpdateDecodesByFormatU : Prop :=
  ∀ (q : Request) (slot : Word) (icPrev icNext : Weight) (prev next : Pixel),
    decode q = .op (.update slot icPrev icNext prev next) ↔
      bits q.toNat 159 156 = 1 ∧ bits q.toNat 155 144 = 0 ∧ bits q.toNat 127 121 = 0 ∧ bits q.toNat 95 89 = 0 ∧
        bits q.toNat 63 56 = 0 ∧ bits q.toNat 31 24 = 0 ∧
        slot.toNat = bits q.toNat 143 128 ∧ icPrev.toNat = bits q.toNat 120 96 ∧ icNext.toNat = bits q.toNat 88 64 ∧
        prev.red.toNat = bits q.toNat 55 48 ∧ prev.green.toNat = bits q.toNat 47 40 ∧
        prev.blue.toNat = bits q.toNat 39 32 ∧ next.red.toNat = bits q.toNat 23 16 ∧
        next.green.toNat = bits q.toNat 15 8 ∧ next.blue.toNat = bits q.toNat 7 0

/-- R62, R63, R64: a word decodes to INTERP with these operands exactly when every field of format `I` says so; code 3
is no channel's (`code` is 0, 1, 2 for red, green, blue: `TableAddresses` says so of the addresses). -/
def Obligations.InterpDecodesByFormatI : Prop :=
  ∀ (q : Request) (ch : Channel) (arg : Word),
    decode q = .op (.interp ch arg) ↔
      bits q.toNat 159 156 = 2 ∧ bits q.toNat 155 146 = 0 ∧ bits q.toNat 127 0 = 0 ∧
        code ch = bits q.toNat 145 144 ∧
        arg.toNat = bits q.toNat 143 128

/-- R67: which words are reserved, that the model refuses them by the name `ReservedEncoding`, and that a word whose
fields are encodable is not reserved, whatever slot and weights it carries. -/
def Obligations.ReservedWordsAreRefused : Prop :=
  (∀ q : Request, (∃ why, decode q = .invalid why) ↔
    (bits q.toNat 159 156 = 0 ∨ 3 ≤ bits q.toNat 159 156) ∨
      (bits q.toNat 159 156 = 1 ∧ (bits q.toNat 155 144 ≠ 0 ∨ bits q.toNat 127 121 ≠ 0 ∨ bits q.toNat 95 89 ≠ 0 ∨
        bits q.toNat 63 56 ≠ 0 ∨ bits q.toNat 31 24 ≠ 0)) ∨
      (bits q.toNat 159 156 = 2 ∧ (bits q.toNat 155 146 ≠ 0 ∨ bits q.toNat 127 0 ≠ 0)) ∨
      (bits q.toNat 159 156 = 2 ∧ bits q.toNat 145 144 = 3)) ∧
  (∀ (s : State) (q : Request) (es : List Event), s.stream = .request q :: es → (∃ why, decode q = .invalid why) →
    ∃ why, step s = .refused (.reservedEncoding why)) ∧
  (∀ (slot : Word) (icPrev icNext : Weight) (prev next : Pixel),
    ∃ q, decode q = .op (.update slot icPrev icNext prev next))

/-- R68, the masks and match values of the two rows. -/
def Obligations.RowsDecodeByMaskAndMatch : Prop :=
  ∀ q : Request,
    ((∃ slot icPrev icNext prev next, decode q = .op (.update slot icPrev icNext prev next)) ↔
      q &&& 0xFFFF0000FE000000FE000000FF000000FF000000#160 = 0x1000000000000000000000000000000000000000#160) ∧
    ((∃ ch arg, decode q = .op (.interp ch arg)) ↔
      q &&& 0xFFFC0000FFFFFFFFFFFFFFFFFFFFFFFFFFFFFFFF#160 = 0x2000000000000000000000000000000000000000#160 ∧
        bits q.toNat 145 144 ≠ 3)

/-- Words of spec/95_test_vectors.md section 3.5 and what they decode to. -/
def Obligations.SampleWordsDecode : Prop :=
  decode (requestOfWords 0x10000003 0x00C0C000 0x00404000 0x000040FF 0x00FFC000) =
      .op (.update 3 0x0C0C000 0x0404000 ⟨0, 64, 255⟩ ⟨255, 192, 0⟩) ∧
    decode (requestOfWords 0x1000FFFF 0x01010000 0 0x00FFFFFF 0) =
      .op (.update 65535 0x1010000 0 ⟨255, 255, 255⟩ ⟨0, 0, 0⟩) ∧
    decode (requestOfWords 0x20011234 0 0 0 0) = .op (.interp .green 0x1234) ∧
    decode (requestOfWords 0x20030000 0 0 0 0) = .invalid .channel

/-- R70, R71: the two example lines of R70 read as operations whose encodings are the words R70 gives, and one line
of each directive reads as the host accesses it stands for (the reader of text is the model's own, log entry 21). -/
def Obligations.AssemblerExamples : Prop :=
  readLine "UPDATE s3, 0x0C0C000, 0x0404000, (0,64,255), (255,192,0)" =
      some (.op (.update 3 0x0C0C000 0x0404000 ⟨0, 64, 255⟩ ⟨255, 192, 0⟩)) ∧
    encode (.update 3 0x0C0C000 0x0404000 ⟨0, 64, 255⟩ ⟨255, 192, 0⟩) =
      requestOfWords 0x10000003 0x00C0C000 0x00404000 0x000040FF 0x00FFC000 ∧
    readLine "INTERP g, 0x1234" = some (.op (.interp .green 0x1234)) ∧
    encode (.interp .green 0x1234) = requestOfWords 0x20011234 0 0 0 0 ∧
    (readLine ".lut b, 256, 0x2000").map assemble = some [.lutWrite 770 0x2000] ∧
    (readLine ".res s1, (-32768, 32767, -200)").map assemble =
      some [.resWrite 3 0x8000, .resWrite 4 0x7FFF, .resWrite 5 0xFF38] ∧
    (readLine ".rdres s1").map assemble = some [.resRead 3, .resRead 4, .resRead 5]

/-! ### The step -/

/-- The step takes the next thing the host issues: a request runs the operation it decodes to, on the state with the
rest of the stream ahead; a reserved word is refused; with nothing issued the block is idle (log entry 2, the model's
choice). -/
def Obligations.StepRunsDecodedRequest : Prop :=
  ∀ (s : State) (es : List Event),
    (∀ q i, s.stream = .request q :: es → decode q = .op i → step s = exec i (s.setStream es)) ∧
      (∀ q why, s.stream = .request q :: es → decode q = .invalid why → step s = .refused (.reservedEncoding why)) ∧
      (s.stream = [] → step s = .next s)

/-- A request placed by `withFetchWord`, from the bits of a word as spec/opcode_table.json numbers them, is what the
very next step runs (log entries 4, 5, the model's choice). -/
def Obligations.PlacedRequestRunsNext : Prop :=
  ∀ (s : State) (nbits w : Nat) (i : Instr), decodeTableWord nbits w = some i → step (s.withFetchWord nbits w) = exec i s

/-! ### INTERP -/

/-- R81: with both entries defined INTERP answers the interpolated intensity in bits 15:0 of the response, zero above,
and changes nothing else; with either undefined it is `fault(LutUndefined)`, also when `alpha` is 0. -/
def Obligations.InterpAnswersInterpolation : Prop :=
  ∀ (ch : Channel) (arg : Word) (s : State),
    (∀ lo hi : Word, s.readLut ch (arg.toNat / 256) = some lo → s.readLut ch (arg.toNat / 256 + 1) = some hi →
      (lo.toNat * (256 - arg.toNat % 256) + hi.toNat * (arg.toNat % 256)) / 256 < 65536 ∧
      exec (.interp ch arg) s = .next { s with responses := s.responses ++
        [BitVec.ofNat 24 ((lo.toNat * (256 - arg.toNat % 256) + hi.toNat * (arg.toNat % 256)) / 256)] }) ∧
    (s.readLut ch (arg.toNat / 256) = none ∨ s.readLut ch (arg.toNat / 256 + 1) = none →
      exec (.interp ch arg) s = .fault .lutUndefined)

/-- R46, R66: INTERP writes no entry of either space and nothing of the host's side but its one response, whose bits
23:16 are 0. -/
def Obligations.InterpFrame : Prop :=
  ∀ (ch : Channel) (arg : Word) (s t : State), exec (.interp ch arg) s = .next t →
    (∀ a, t.resAt a = s.resAt a) ∧ (∀ a, t.lutAt a = s.lutAt a) ∧ t.res = s.res ∧ t.lut = s.lut ∧
      t.stream = s.stream ∧ t.observed = s.observed ∧
      ∃ w : Response, t.responses = s.responses ++ [w] ∧ bits w.toNat 23 16 = 0

/-- R82. -/
def Obligations.InterpolationBounds : Prop :=
  ∀ (lo hi : Word) (alpha : Nat), alpha ≤ 255 →
    interpSum lo hi alpha ≤ 16776960 ∧ interpSum lo hi alpha < 2 ^ 24 ∧ lo.toNat * (256 - alpha) < 2 ^ 24 ∧
      hi.toNat * alpha < 2 ^ 24 ∧
      min lo.toNat hi.toNat ≤ interpSum lo hi alpha / 256 ∧ interpSum lo hi alpha / 256 ≤ max lo.toNat hi.toNat ∧
      (interpResult lo hi alpha).toNat = interpSum lo hi alpha / 256 ∧
      ((interpResult lo hi alpha).toNat : Int) = lo.toNat + ((hi.toNat : Int) - lo.toNat) * alpha / 256

/-- R83: the largest input uses entries 255 and 256, with weights 1 and 255; no input has `alpha` 256. -/
def Obligations.InterpTopBoundary : Prop :=
  tableIndex 0xFFFF = 255 ∧ tableAlpha 0xFFFF = 255 ∧ (∀ a : Word, tableAlpha a < 256) ∧
    (∀ (ch : Channel) (s : State) (lo hi : Word), s.readLut ch 255 = some lo → s.readLut ch 256 = some hi →
      exec (.interp ch 0xFFFF) s = .next (s.respond (BitVec.ofNat 24 ((lo.toNat * 1 + hi.toNat * 255) / 256)))) ∧
    (4096 * 1 + 8192 * 255) / 256 = 0x1FF0

/-- R84: a constant table returns its constant for every input. -/
def Obligations.ConstantTableIsIdentity : Prop :=
  ∀ (ch : Channel) (k : Word) (s : State), (∀ i, i ≤ 256 → s.readLut ch i = some k) →
    ∀ a : Word, exec (.interp ch a) s = .next (s.respond (k.setWidth 24))

/-- R85: (a) grid points are exact; (b) a non-decreasing table gives a non-decreasing function over the whole range;
(c) a strictly increasing input need not give a strictly increasing output, even for a strictly increasing table;
(d) every table is taken, and the operation computes this function of it. -/
def Obligations.InterpolationGridAndMonotone : Prop :=
  (∀ (t : Nat → Word) (a : Word), a.toNat % 256 = 0 → interp t a = t (a.toNat / 256)) ∧
  (∀ t : Nat → Word, (∀ i, i ≤ 255 → (t i).toNat ≤ (t (i + 1)).toNat) →
    ∀ a b : Word, a.toNat ≤ b.toNat → (interp t a).toNat ≤ (interp t b).toNat) ∧
  (∃ t : Nat → Word, (∀ i, i ≤ 255 → (t i).toNat < (t (i + 1)).toNat) ∧
    ∃ a b : Word, a.toNat < b.toNat ∧ interp t a = interp t b) ∧
  (∀ (t : Nat → Word) (ch : Channel) (s : State), (∀ i, i ≤ 256 → s.readLut ch i = some (t i)) →
    ∀ a : Word, exec (.interp ch a) s = .next (s.respond ((interp t a).setWidth 24)))

/-- R86: the response depends on the two entries and `alpha` only. -/
def Obligations.InterpReadsTwoEntries : Prop :=
  ∀ (c d : Channel) (a b : Word) (s s' t : State), a.toNat % 256 = b.toNat % 256 →
    s.readLut c (a.toNat / 256) = s'.readLut d (b.toNat / 256) →
    s.readLut c (a.toNat / 256 + 1) = s'.readLut d (b.toNat / 256 + 1) →
    exec (.interp c a) s = .next t →
    ∃ w t', exec (.interp d b) s' = .next t' ∧ t.responses = s.responses ++ [w] ∧ t'.responses = s'.responses ++ [w]

/-! ### The blend -/

/-- R92: under the weight contract nothing exceeds 32 bits and the result is a 16-bit value. -/
def Obligations.BlendBounds : Prop :=
  ∀ (p n : Byte) (icPrev icNext : Weight), icPrev.toNat + icNext.toNat = 0x1010000 →
    blendAcc p n icPrev icNext ≤ 0xFFFF0000 ∧ blendAcc p n icPrev icNext < 2 ^ 32 ∧
      p.toNat * icPrev.toNat ≤ 0xFFFF0000 ∧ n.toNat * icNext.toNat ≤ 0xFFFF0000 ∧
      blend p n icPrev icNext ≤ 0xFFFF ∧ (blendWord p n icPrev icNext).toNat = blend p n icPrev icNext

/-- R93: full weight on one frame gives that frame's byte times 257, exactly. -/
def Obligations.BlendExtremesExact : Prop :=
  ∀ p n : Byte, blend p n 0x1010000 0 = p.toNat * 257 ∧ blend p n 0 0x1010000 = n.toNat * 257

/-- R94: the closed forms and their consequences (a) to (d). -/
def Obligations.BlendClosedForm : Prop :=
  (∀ (p n : Byte) (icPrev icNext : Weight), icPrev.toNat + icNext.toNat = 0x1010000 →
    (blendAcc p n icPrev icNext : Int) = 257 * p.toNat * 65536 + ((n.toNat : Int) - p.toNat) * icNext.toNat ∧
    (blend p n icPrev icNext : Int) = 257 * p.toNat + ((n.toNat : Int) - p.toNat) * icNext.toNat / 65536 ∧
    (blend p n icPrev icNext : Int) = 257 * n.toNat + ((p.toNat : Int) - n.toNat) * icPrev.toNat / 65536 ∧
    (p = n → blend p n icPrev icNext = 257 * p.toNat) ∧
    257 * min p.toNat n.toNat ≤ blend p n icPrev icNext ∧ blend p n icPrev icNext ≤ 257 * max p.toNat n.toNat ∧
    blend p n icPrev icNext = blend n p icNext icPrev) ∧
  (∀ (p n : Byte) (a b a' b' : Weight), a.toNat + b.toNat = 0x1010000 → a'.toNat + b'.toNat = 0x1010000 →
    b.toNat ≤ b'.toNat →
    (p.toNat ≤ n.toNat → blend p n a b ≤ blend p n a' b') ∧ (n.toNat ≤ p.toNat → blend p n a' b' ≤ blend p n a b)) ∧
  blend 200 10 1 0x100FFFF = 2570 ∧ blend 10 200 1 0x100FFFF = 51399

/-! ### The quantizer -/

/-- R100: the injection is exact, and its range. -/
def Obligations.InjectionRange : Prop :=
  ∀ v r : Word, inject v r = v.toNat + r.toInt ∧ -32768 ≤ inject v r ∧ inject v r ≤ 98302 ∧
    (inBand r → -383 ≤ inject v r ∧ inject v r ≤ 65662)

/-- R101: bias, clamp, top 8 bits; the closed form; when the byte is 0 and when it is 255; the range of `z`. -/
def Obligations.QuantizerRoundsAndSaturates : Prop :=
  (∀ x : Int,
    ((quantize x).toNat : Int) =
      (if x + 0x80 < 0 then 0 else if x + 0x80 > 0xFFFF then 0xFFFF else x + 0x80) / 256 ∧
    ((quantize x).toNat : Int) = max 0 (min 255 ((x + 128) / 256)) ∧
    ((quantize x).toNat = 0 ↔ x < 128) ∧ ((quantize x).toNat = 255 ↔ 65152 ≤ x)) ∧
  (∀ v r : Word, -32640 ≤ inject v r + 0x80 ∧ inject v r + 0x80 ≤ 98430)

/-- R106, the table of the regimes; the byte and the residual stored for a calibrated intensity and a residual. -/
def Obligations.QuantizerRegimes : Prop :=
  ∀ (v r : Word) (x : Int), x = inject v r →
    (x < -128 → (quantLane v r).out = 0 ∧ (quantLane v r).res.toInt = x) ∧
    (-128 ≤ x → x ≤ 127 → (quantLane v r).out = 0 ∧ (quantLane v r).res.toInt = x) ∧
    (128 ≤ x → x ≤ 65151 →
      ((quantLane v r).out.toNat : Int) = (x + 128) / 256 ∧ 1 ≤ (quantLane v r).out.toNat ∧
      (quantLane v r).out.toNat ≤ 254 ∧
      (quantLane v r).res.toInt = (x + 128) % 256 - 128 - (x + 128) / 256 ∧
      -382 ≤ (quantLane v r).res.toInt ∧ (quantLane v r).res.toInt ≤ 126) ∧
    (65152 ≤ x → x ≤ 65407 → (quantLane v r).out = 255 ∧ (quantLane v r).res.toInt = x - 65535 ∧
      -383 ≤ (quantLane v r).res.toInt ∧ (quantLane v r).res.toInt ≤ -128) ∧
    (65408 ≤ x → (quantLane v r).out = 255 ∧ (quantLane v r).res.toInt = x - 65535 ∧
      -127 ≤ (quantLane v r).res.toInt)

/-- R106, its consequence for exact byte values `257 * k`, from a zero residual and on the next update of the same
value; for `k = 128` the outputs alternate. -/
def Obligations.ExactByteOutputs : Prop :=
  (∀ k : Nat, k ≤ 127 ∨ k = 255 → quantLane (BitVec.ofNat 16 (257 * k)) 0 = ⟨BitVec.ofNat 8 k, 0⟩) ∧
  (∀ k : Nat, 128 ≤ k → k ≤ 254 →
    quantLane (BitVec.ofNat 16 (257 * k)) 0 = ⟨BitVec.ofNat 8 (k + 1), BitVec.ofInt 16 (-257)⟩) ∧
  (∀ k : Nat, 129 ≤ k → k ≤ 254 →
    quantLane (BitVec.ofNat 16 (257 * k)) (BitVec.ofInt 16 (-257)) = ⟨BitVec.ofNat 8 k, BitVec.ofInt 16 (-257)⟩) ∧
  quantLane (BitVec.ofNat 16 (257 * 128)) (BitVec.ofInt 16 (-257)) = ⟨127, 0⟩

/-- R107: (a) the new residual fits 16 bits for every residual; (b) the band [-383, 127] is kept, and both its ends
are reached from 0; (c) outside the band it moves back, by `v` when low and by `65535 - v` when high. -/
def Obligations.ResidualRange : Prop :=
  (∀ v r : Word,
    -32768 ≤ newResidual (inject v r) (quantize (inject v r)) ∧
    newResidual (inject v r) (quantize (inject v r)) ≤ 32767 ∧
    (quantLane v r).res.toInt = newResidual (inject v r) (quantize (inject v r)) ∧
    (inBand r → inBand (quantLane v r).res) ∧
    (inject v r < -128 → (quantLane v r).res.toInt = r.toInt + v.toNat ∧ r.toInt ≤ (quantLane v r).res.toInt ∧
      (quantLane v r).res.toInt < -128) ∧
    (-128 ≤ inject v r → inject v r ≤ 65407 → inBand (quantLane v r).res) ∧
    (65408 ≤ inject v r → (quantLane v r).res.toInt = r.toInt - (65535 - v.toNat) ∧
      (quantLane v r).res.toInt ≤ r.toInt ∧ -127 ≤ (quantLane v r).res.toInt)) ∧
  (quantLane 127 0).res.toInt = 127 ∧ quantLane 65152 0 = ⟨255, BitVec.ofInt 16 (-383)⟩

/-- R108: the byte saturates and never wraps; the two extreme residuals. -/
def Obligations.QuantizerSaturates : Prop :=
  (∀ v r : Word, (inject v r + 0x80 < 0 → (quantLane v r).out = 0) ∧
    (inject v r + 0x80 > 0xFFFF → (quantLane v r).out = 255)) ∧
  quantLane 0 (BitVec.ofInt 16 (-32768)) = ⟨0, BitVec.ofInt 16 (-32768)⟩ ∧ inject 0 (BitVec.ofInt 16 (-32768)) = -32768 ∧
  quantLane 65535 32767 = ⟨255, 32767⟩ ∧ inject 65535 32767 = 98302

/-- R102, two rows of its table of wrong variants: on these inputs a clamp before the bias, modular arithmetic, or a
residual taken from a clamped value would give another byte or another residual. -/
def Obligations.QuantizerIsNoWrongVariant : Prop :=
  inject 65500 0 = 65500 ∧ quantLane 65500 0 = ⟨255, BitVec.ofInt 16 (-35)⟩ ∧
    inject 300 (BitVec.ofInt 16 (-500)) = -200 ∧
    quantLane 300 (BitVec.ofInt 16 (-500)) = ⟨0, BitVec.ofInt 16 (-200)⟩

/-- R105: after any UPDATE, for every channel, the output byte times 257 plus the stored residual is the injected
intensity, the calibrated intensity plus the residual before. -/
def Obligations.ExactnessAfterUpdate : Prop :=
  ∀ (slot : Word) (icPrev icNext : Weight) (prev next : Pixel) (s t : State),
    exec (.update slot icPrev icNext prev next) s = .next t →
    ∃ w, t.responses = s.responses ++ [w] ∧
      ∀ c, ∃ v, s.interpAt c (blendWord (prev.get c) (next.get c) icPrev icNext) = some v ∧
        (outByte c w : Int) * 257 + (t.readRes slot.toNat c).toInt = v.toNat + (s.readRes slot.toNat c).toInt

/-- R110, R65: the packed word, and the field of each channel in it. -/
def Obligations.PackPlacesBytes : Prop :=
  (∀ o : PerChannel Byte,
    (pack o).toNat = (o.green.toNat <<< 16 ||| o.red.toNat <<< 8 ||| o.blue.toNat) ∧
    bits (pack o).toNat 23 16 = o.green.toNat ∧ bits (pack o).toNat 15 8 = o.red.toNat ∧
    bits (pack o).toNat 7 0 = o.blue.toNat) ∧
  pack ⟨0x10, 0x24, 0x90⟩ = 0x241090

/-- R109: over any number of UPDATEs of one slot, 257 times the sum of a channel's output bytes is the sum of its
calibrated intensities plus the residual before less the residual after; with a constant intensity and a residual in
the band, the mean of the outputs is within 510 / (257 n) of the intensity over 257. -/
def Obligations.ConservationOverUpdates : Prop :=
  ∀ (ops : List Instr) (slot : Word) (c : Channel) (s t : State), (∀ i ∈ ops, isUpdateOf slot i = true) →
    execAll ops s = .next t →
    ∃ ws : List Response, t.responses = s.responses ++ ws ∧ ws.length = ops.length ∧
      257 * (ws.map fun w => (outByte c w : Int)).sum =
        (ops.map (calibratedOf s c)).sum + (s.readRes slot.toNat c).toInt - (t.readRes slot.toNat c).toInt ∧
      ∀ v : Int, inBand (s.readRes slot.toNat c) → (∀ i ∈ ops, calibratedOf s c i = v) → 0 < ops.length →
        |((ws.map fun w => (outByte c w : ℚ)).sum) / ops.length - v / 257| ≤ 510 / (257 * ops.length)

/-! ### UPDATE -/

/-- R126: UPDATE answers, and computes the reference function: for the blended intensities `b`, the two entries `lo`
and `hi` each of them selects, and the residuals before, the new residuals and the response word. -/
def Obligations.UpdateFollowsReferenceFunction : Prop :=
  ∀ (slot : Word) (icPrev icNext : Weight) (prev next : Pixel) (s : State) (lo hi : Channel → Word) (b v o : Channel → Nat)
    (x : Channel → Int),
    slot.toNat < Config.nSlots → icPrev.toNat + icNext.toNat = 0x1010000 →
    (∀ c, b c = ((prev.get c).toNat * icPrev.toNat + (next.get c).toNat * icNext.toNat) / 2 ^ 16) →
    (∀ c, s.readLut c (b c / 256) = some (lo c) ∧ s.readLut c (b c / 256 + 1) = some (hi c)) →
    (∀ c, v c = ((lo c).toNat * (256 - b c % 256) + (hi c).toNat * (b c % 256)) / 256) →
    (∀ c, x c = v c + (s.readRes slot.toNat c).toInt) →
    (∀ c, (o c : Int) = min (max (x c + 0x80) 0) 0xFFFF / 256) →
    ∃ t, exec (.update slot icPrev icNext prev next) s = .next t ∧
      (∀ c, (t.readRes slot.toNat c).toInt = x c - o c * 257) ∧
      t.responses = s.responses ++ [BitVec.ofNat 24 (o .green <<< 16 ||| o .red <<< 8 ||| o .blue)]

/-- R122: the contract checks in their order, on a block with any number `k` of slots; each names its outcome, and
when none applies UPDATE answers. The reserved word comes first, at the step. -/
def Obligations.UpdateContractChecks : Prop :=
  (∀ (s : State) (q : Request) (es : List Event), s.stream = .request q :: es → (∃ why, decode q = .invalid why) →
    ∃ why, step s = .refused (.reservedEncoding why)) ∧
  (∀ (slot : Word) (icPrev icNext : Weight) (prev next : Pixel) (s : State),
    exec (.update slot icPrev icNext prev next) s = updateWith Config.nSlots slot icPrev icNext prev next s) ∧
  ∀ (k : Nat) (slot : Word) (icPrev icNext : Weight) (prev next : Pixel) (s : State),
    (k ≤ slot.toNat → updateWith k slot icPrev icNext prev next s = .refused .slotOutOfRange) ∧
    (slot.toNat < k → icPrev.toNat + icNext.toNat ≠ 0x1010000 →
      updateWith k slot icPrev icNext prev next s = .refused .weightSum) ∧
    (slot.toNat < k → icPrev.toNat + icNext.toNat = 0x1010000 →
      (∃ c, s.readLut c (blend (prev.get c) (next.get c) icPrev icNext / 256) = none ∨
        s.readLut c (blend (prev.get c) (next.get c) icPrev icNext / 256 + 1) = none) →
      updateWith k slot icPrev icNext prev next s = .fault .lutUndefined) ∧
    (slot.toNat < k → icPrev.toNat + icNext.toNat = 0x1010000 →
      (∀ c, s.readLut c (blend (prev.get c) (next.get c) icPrev icNext / 256) ≠ none ∧
        s.readLut c (blend (prev.get c) (next.get c) icPrev icNext / 256 + 1) ≠ none) →
      ∃ t, updateWith k slot icPrev icNext prev next s = .next t)

/-- R124, R46: UPDATE changes no residual of another slot, no entry of `RES` but the slot's three, no table entry and
nothing of the host's side but its one response. -/
def Obligations.UpdateFrame : Prop :=
  ∀ (slot : Word) (icPrev icNext : Weight) (prev next : Pixel) (s t : State),
    exec (.update slot icPrev icNext prev next) s = .next t →
    (∀ n c, n ≠ slot.toNat → t.readRes n c = s.readRes n c) ∧
      (∀ a, (∀ c, a ≠ resAddr slot.toNat c) → t.resAt a = s.resAt a) ∧
      (∀ a, t.lutAt a = s.lutAt a) ∧ t.lut = s.lut ∧ t.stream = s.stream ∧ t.observed = s.observed ∧
      ∃ w, t.responses = s.responses ++ [w]

/-- R123: the response and the new residuals are determined by the operands, the six table entries read and the
slot's old residuals. -/
def Obligations.UpdateIsDetermined : Prop :=
  ∀ (slot : Word) (icPrev icNext : Weight) (prev next : Pixel) (s s' t : State),
    (∀ c, s.readLut c (blend (prev.get c) (next.get c) icPrev icNext / 256) =
        s'.readLut c (blend (prev.get c) (next.get c) icPrev icNext / 256) ∧
      s.readLut c (blend (prev.get c) (next.get c) icPrev icNext / 256 + 1) =
        s'.readLut c (blend (prev.get c) (next.get c) icPrev icNext / 256 + 1) ∧
      s.readRes slot.toNat c = s'.readRes slot.toNat c) →
    exec (.update slot icPrev icNext prev next) s = .next t →
    ∃ w t', exec (.update slot icPrev icNext prev next) s' = .next t' ∧ t.responses = s.responses ++ [w] ∧
      t'.responses = s'.responses ++ [w] ∧ ∀ c, t'.readRes slot.toNat c = t.readRes slot.toNat c

/-- R121: a channel's output byte and new residual depend on nothing of the other two channels. -/
def Obligations.ChannelsAreIndependent : Prop :=
  ∀ (c : Channel) (slot slot' : Word) (icPrev icNext : Weight) (prev next prev' next' : Pixel) (s s' t t' : State),
    prev.get c = prev'.get c → next.get c = next'.get c → (∀ i, i ≤ 256 → s.readLut c i = s'.readLut c i) →
    s.readRes slot.toNat c = s'.readRes slot'.toNat c →
    exec (.update slot icPrev icNext prev next) s = .next t →
    exec (.update slot' icPrev icNext prev' next') s' = .next t' →
    t.readRes slot.toNat c = t'.readRes slot'.toNat c ∧
      ∃ w w', t.responses = s.responses ++ [w] ∧ t'.responses = s'.responses ++ [w'] ∧ outByte c w = outByte c w'

/-- R53 (a): two UPDATEs of different slots give the same words and the same final memories in either order, on a
block with any number `k` of slots (so that two slots exist; `exec` is the case `k = N_SLOTS`). Premise beyond the
rule: the memories are canonical (log entry 6, the model's choice), so that equal contents are equal data. -/
def Obligations.UpdatesOfDifferentSlotsCommute : Prop :=
  (∀ (slot : Word) (icPrev icNext : Weight) (prev next : Pixel) (s : State),
    exec (.update slot icPrev icNext prev next) s = updateWith Config.nSlots slot icPrev icNext prev next s) ∧
  ∀ (k : Nat) (n m : Word) (a b c d : Weight) (p q u v : Pixel) (s s₁ t : State), n ≠ m → s.memWf k = true →
    updateWith k n a b p q s = .next s₁ → updateWith k m c d u v s₁ = .next t →
    ∃ s₂ t' w w', updateWith k m c d u v s = .next s₂ ∧ updateWith k n a b p q s₂ = .next t' ∧
      t'.res = t.res ∧ t'.lut = t.lut ∧ s₁.responses = s.responses ++ [w] ∧ t.responses = s.responses ++ [w, w'] ∧
      s₂.responses = s.responses ++ [w'] ∧ t'.responses = s.responses ++ [w', w]

/-- R53 (b): INTERP commutes with every operation, whichever comes first. -/
def Obligations.InterpCommutesWithEveryOperation : Prop :=
  ∀ (ch : Channel) (arg : Word) (i : Instr) (s s₁ t : State),
    (exec (.interp ch arg) s = .next s₁ → exec i s₁ = .next t →
      ∃ s₂ t' w w', exec i s = .next s₂ ∧ exec (.interp ch arg) s₂ = .next t' ∧ t'.res = t.res ∧ t'.lut = t.lut ∧
        t.responses = s.responses ++ [w, w'] ∧ t'.responses = s.responses ++ [w', w]) ∧
    (exec i s = .next s₁ → exec (.interp ch arg) s₁ = .next t →
      ∃ s₂ t' w w', exec (.interp ch arg) s = .next s₂ ∧ exec i s₂ = .next t' ∧ t'.res = t.res ∧ t'.lut = t.lut ∧
        t.responses = s.responses ++ [w, w'] ∧ t'.responses = s.responses ++ [w', w])

/-- R53 (c): two UPDATEs of one slot do not commute in general: some residual of the slot reads differently after the
two orders. -/
def Obligations.SameSlotUpdatesNeedNotCommute : Prop :=
  ∃ (s : State) (i j : Instr) (t t' : State) (c : Channel), isUpdateOf 0 i = true ∧ isUpdateOf 0 j = true ∧
    execAll [i, j] s = .next t ∧ execAll [j, i] s = .next t' ∧ t.readRes 0 c ≠ t'.readRes 0 c

/-- R12, R152: once every entry of `LUT` is defined, every operation that keeps the contract completes, and leaves
every entry defined. -/
def Obligations.LoadedBlockCompletes : Prop :=
  ∀ (i : Instr) (s : State), (∀ c k, k ≤ 256 → s.readLut c k ≠ none) → i.wellFormed Config.nSlots = true →
    ∃ t, exec i s = .next t ∧ ∀ c k, k ≤ 256 → t.readLut c k ≠ none

/-! ### The host port and reset -/

/-- R48: the effect of the four accesses, each at every address of its space, and that it changes nothing else. -/
def Obligations.HostAccessEffects : Prop :=
  ∀ (s : State) (es : List Event) (c : Channel) (v : Word),
    (∀ i, i ≤ 256 → s.stream = .lutWrite (lutAddr c i) v :: es →
      ∃ t, step s = .next t ∧ t.readLut c i = some v ∧ (∀ a, a ≠ lutAddr c i → t.lutAt a = s.lutAt a) ∧
        t.res = s.res ∧ t.stream = es ∧ t.responses = s.responses ∧ t.observed = s.observed) ∧
    (∀ i, i ≤ 256 → s.stream = .lutRead (lutAddr c i) :: es → s.readLut c i = some v →
      step s = .next { s with stream := es, observed := s.observed ++ [.lutEntry v] }) ∧
    (∀ i, i ≤ 256 → s.stream = .lutRead (lutAddr c i) :: es → s.readLut c i = none →
      step s = .refused .hostReadUndefined) ∧
    (∀ n, n < Config.nSlots → s.stream = .resWrite (resAddr n c) v :: es →
      ∃ t, step s = .next t ∧ t.readRes n c = v ∧ (∀ a, a ≠ resAddr n c → t.resAt a = s.resAt a) ∧
        t.lut = s.lut ∧ t.stream = es ∧ t.responses = s.responses ∧ t.observed = s.observed) ∧
    (∀ n, n < Config.nSlots → s.stream = .resRead (resAddr n c) :: es →
      step s = .next { s with stream := es, observed := s.observed ++ [.residual (s.readRes n c)] })

/-- R44: a host access outside its space is refused. -/
def Obligations.HostAddressOutOfRange : Prop :=
  ∀ (s : State) (es : List Event) (a : Nat) (v : Word),
    (770 < a → s.stream = .lutWrite a v :: es ∨ s.stream = .lutRead a :: es →
      step s = .refused .hostAddressOutOfRange) ∧
    (3 * Config.nSlots - 1 < a → s.stream = .resWrite a v :: es ∨ s.stream = .resRead a :: es →
      step s = .refused .hostAddressOutOfRange)

/-- R41: the linear addresses of `LUT` are the numbers 0 to 770, each the address of one entry. -/
def Obligations.TableAddresses : Prop :=
  (∀ i, lutAddr .red i = i ∧ lutAddr .green i = 257 + i ∧ lutAddr .blue i = 514 + i) ∧
  (∀ c i, i ≤ 256 → lutAddr c i ≤ 770) ∧
  ∀ a, a ≤ 770 → ∃! e : Channel × Nat, e.2 ≤ 256 ∧ lutAddr e.1 e.2 = a

/-- R42: the linear addresses of `RES` are the numbers below `3 * N_SLOTS`, each the address of one entry. -/
def Obligations.ResidualAddresses : Prop :=
  (∀ n, resAddr n .red = 3 * n ∧ resAddr n .green = 3 * n + 1 ∧ resAddr n .blue = 3 * n + 2) ∧
  (∀ n c, n < Config.nSlots → resAddr n c < 3 * Config.nSlots) ∧
  ∀ a, a < 3 * Config.nSlots → ∃! e : Nat × Channel, e.1 < Config.nSlots ∧ resAddr e.1 e.2 = a

/-- R49 (b), R51, R80: an INTERP of any input, after two host table writes to the two entries it selects, sees both,
end to end: three steps from any state deliver their interpolation. -/
def Obligations.OperationSeesHostWrites : Prop :=
  ∀ (s : State) (es : List Event) (c : Channel) (arg v w : Word),
    s.stream = [.lutWrite (lutAddr c (arg.toNat / 256)) v, .lutWrite (lutAddr c (arg.toNat / 256 + 1)) w,
      .request (encode (.interp c arg))] ++ es →
    ∃ t, runSteps 3 s = .next t ∧ t.responses = s.responses ++
        [BitVec.ofNat 24 ((v.toNat * (256 - arg.toNat % 256) + w.toNat * (arg.toNat % 256)) / 256)] ∧
      t.stream = es ∧ t.res = s.res ∧ t.observed = s.observed

/-- R71: the directive `.lutf` loads all 257 entries of its channel, and touches no other. -/
def Obligations.TableDirectiveLoads : Prop :=
  ∀ (s : State) (es : List Event) (ch : Channel) (table : Vector Word 257),
    s.stream = assemble (.lutf ch table) ++ es →
    ∃ t, runSteps 257 s = .next t ∧ (∀ i (h : i < 257), t.readLut ch i = some table[i]) ∧
      (∀ c i, c ≠ ch → i ≤ 256 → t.readLut c i = s.readLut c i) ∧ t.res = s.res ∧ t.stream = es

/-- R60: every request that completes delivers exactly one response, after those before it, and no other step delivers
any; what the host has read keeps its place in the sequence. The record of what was delivered and read is the model's
choice (log entry 9), and so is that the reset event keeps it (log entry 15). -/
def Obligations.OneResponsePerRequest : Prop :=
  ∀ s t : State, step s = .next t →
    (∀ q es, s.stream = .request q :: es → ∃ w, t.delivered = s.delivered ++ [w]) ∧
    ((∀ q es, s.stream ≠ .request q :: es) → t.delivered = s.delivered)

/-- R11, the host's read of a response: it is given the oldest one waiting, which then waits no longer, and nothing
else changes; where none is waiting it is given nothing and only the stream moves on (log entry 9, the model's
choice). -/
def Obligations.HostReadsResponses : Prop :=
  ∀ (s : State) (es : List Event), s.stream = .readResponse :: es →
    (∀ w ws, s.responses = w :: ws →
      step s = .next { s with stream := es, responses := ws, observed := s.observed ++ [.response w] }) ∧
    (s.responses = [] → step s = .next { s with stream := es })

/-- R151: the reset event leaves every residual 0 and every table entry undefined. -/
def Obligations.ResetEventClears : Prop :=
  ∀ (s : State) (es : List Event), s.stream = .reset :: es →
    ∃ t, step s = .next t ∧ (∀ n c, t.readRes n c = 0) ∧ (∀ c i, t.readLut c i = none)

/-- R30: after reset every element of `RES` is 0 and every element of `LUT` undefined. -/
def Obligations.ResetValues : Prop :=
  (∀ n c, State.reset.readRes n c = 0) ∧ (∀ c i, State.reset.readLut c i = none)

/-! ### Runs and their marks -/

/-- R131, R158: one step of a run is the machine's step, and marks it only when that step ends in a fault or a refusal;
then neither memory nor anything delivered changes, and the host goes on with what it does next (log entry 20); no mark
is ever taken back, however long the run. -/
def Obligations.RunMarksAccumulate : Prop :=
  (∀ (s : State) (ms : List Mark),
    (∀ t, step s = .next t → Run.steps 1 ⟨s, ms⟩ = ⟨t, ms⟩) ∧
    (∀ f, step s = .fault f → Run.steps 1 ⟨s, ms⟩ = ⟨{ s with stream := s.stream.tail }, ms ++ [.fault f]⟩) ∧
    (∀ w, step s = .refused w → Run.steps 1 ⟨s, ms⟩ = ⟨{ s with stream := s.stream.tail }, ms ++ [.refused w]⟩)) ∧
  (∀ (j k : Nat) (r : Run), Run.steps (j + k) r = Run.steps k (Run.steps j r)) ∧
  ∀ (k : Nat) (r : Run), ∃ more, (Run.steps k r).marks = r.marks ++ more ∧ more.length ≤ k

/-- R131: a run is successful, with no mark added, exactly when each of its steps answers; then it is the run of those
steps. -/
def Obligations.SuccessfulRunsAreRunsOfSteps : Prop :=
  ∀ (k : Nat) (r : Run),
    ((Run.steps k r).marks = r.marks ↔ ∃ t, runSteps k r.state = .next t) ∧
      ∀ t, runSteps k r.state = .next t → Run.steps k r = ⟨t, r.marks⟩

/-- R49, R60: what the host does is worked off, marked or not: after one step for each thing in its stream there is
nothing left in it, and if no mark was added exactly one response was delivered for each request, those before them
kept in their order. It does not say that the run has ended in the sense of R158: a response may be left unread, or a
request marked. (The stream, the record and that reset keeps it are the model's choice, log entries 2, 9, 15; that a
run goes on after a mark is deduced, log entry 20.) -/
def Obligations.HostStreamIsWorkedOff : Prop :=
  ∀ r : Run, r.finish.state.stream = [] ∧
    (r.finish.marks = r.marks → ∃ ws, r.finish.state.delivered = r.state.delivered ++ ws ∧
      ws.length = r.state.stream.countP fun e => match e with
        | .request _ => true
        | _ => false)

/-! ### Invariants and whole-machine rules -/

/-- The canonical form of both memories at reset. -/
def Obligations.ResetMemoryCanonical : Prop := State.reset.memWf Config.nSlots = true

/-- R40 to R42, R44: every step keeps both memories canonical: addresses strictly rising, inside the space, no entry
listed that reads as an unlisted one. -/
def Obligations.StepKeepsMemoryCanonical : Prop :=
  ∀ s t : State, s.memWf Config.nSlots = true → step s = .next t → t.memWf Config.nSlots = true

/-- The residual band at reset, with no host write outside it to come. The second half holds because the host's stream
is empty at reset, which is the model's choice (log entry 16). -/
def Obligations.ResetInResidualBand : Prop := State.reset.BandInv

/-- R22 (b), (c): every step keeps every residual in [-383, 127], as long as the host writes none outside. -/
def Obligations.StepKeepsResidualBand : Prop :=
  ∀ s t : State, s.BandInv → step s = .next t → t.BandInv

/-- R20, R23: a table entry changes only by a host write to it, which it then holds, or by reset. -/
def Obligations.OnlyHostWritesChangeTable : Prop :=
  ∀ (s t : State) (a : Nat), step s = .next t → t.lutAt a ≠ s.lutAt a →
    (∃ v es, s.stream = .lutWrite a v :: es ∧ t.lutAt a = some v) ∨
      (∃ es, s.stream = .reset :: es ∧ t.lutAt a = none)

/-- R20, R21: a residual changes only by a host write to it, which it then holds, by reset, or by an UPDATE of its
slot. -/
def Obligations.OnlyOwnersChangeResidual : Prop :=
  ∀ (s t : State) (n : Nat) (c : Channel), step s = .next t → t.readRes n c ≠ s.readRes n c →
    (∃ v es, s.stream = .resWrite (resAddr n c) v :: es ∧ t.readRes n c = v) ∨
      (∃ es, s.stream = .reset :: es ∧ t.readRes n c = 0) ∨
      (∃ q es slot, ∃ icPrev icNext : Weight, ∃ prev next : Pixel, s.stream = .request q :: es ∧
        decode q = .op (.update slot icPrev icNext prev next) ∧ slot.toNat = n)

/-- R31: an entry once defined stays defined until reset. -/
def Obligations.DefinedEntriesStayDefined : Prop :=
  ∀ (s t : State) (a : Nat), (∀ es, s.stream ≠ .reset :: es) → step s = .next t → s.lutAt a ≠ none → t.lutAt a ≠ none
end

