-- ==== Sys2Proof/Laws/Encoding.lean ====
section
/-! SUPPORT. The fields of a request word built from five 32-bit words (spec/30_encoding.md R60): a field that lies
inside one word is that word's field. -/

namespace Sys2Proof

section
variable (w0 w1 w2 w3 w4 v0 v1 v2 v3 v4 : BitVec 32)

theorem requestOfWords_field_w4 {lo n : Nat} (h : lo + n ≤ 32) :
    (requestOfWords w0 w1 w2 w3 w4).extractLsb' lo n = w4.extractLsb' lo n :=
  BitVec.extractLsb'_append_eq_of_add_le h

theorem requestOfWords_field_w3 {lo n : Nat} (h : lo + n ≤ 32) :
    (requestOfWords w0 w1 w2 w3 w4).extractLsb' (lo + 32) n = w3.extractLsb' lo n := by
  unfold requestOfWords
  rw [BitVec.extractLsb'_append_eq_of_le (by omega), BitVec.extractLsb'_append_eq_of_add_le (by omega),
    show lo + 32 - 32 = lo by omega]

theorem requestOfWords_field_w2 {lo n : Nat} (h : lo + n ≤ 32) :
    (requestOfWords w0 w1 w2 w3 w4).extractLsb' (lo + 64) n = w2.extractLsb' lo n := by
  unfold requestOfWords
  rw [BitVec.extractLsb'_append_eq_of_le (by omega), BitVec.extractLsb'_append_eq_of_le (by omega),
    BitVec.extractLsb'_append_eq_of_add_le (by omega),
    show lo + 64 - 32 - 32 = lo by omega]

theorem requestOfWords_field_w1 {lo n : Nat} (h : lo + n ≤ 32) :
    (requestOfWords w0 w1 w2 w3 w4).extractLsb' (lo + 96) n = w1.extractLsb' lo n := by
  unfold requestOfWords
  rw [BitVec.extractLsb'_append_eq_of_le (by omega), BitVec.extractLsb'_append_eq_of_le (by omega),
    BitVec.extractLsb'_append_eq_of_le (by omega), BitVec.extractLsb'_append_eq_of_add_le (by omega),
    show lo + 96 - 32 - 32 - 32 = lo by omega]

theorem requestOfWords_field_w0 {lo n : Nat} :
    (requestOfWords w0 w1 w2 w3 w4).extractLsb' (lo + 128) n = w0.extractLsb' lo n := by
  unfold requestOfWords
  rw [BitVec.extractLsb'_append_eq_of_le (by omega), BitVec.extractLsb'_append_eq_of_le (by omega),
    BitVec.extractLsb'_append_eq_of_le (by omega), BitVec.extractLsb'_append_eq_of_le (by omega),
    show lo + 128 - 32 - 32 - 32 - 32 = lo by omega]

/-- Masking a request masks each of its words. -/
theorem requestOfWords_and :
    requestOfWords w0 w1 w2 w3 w4 &&& requestOfWords v0 v1 v2 v3 v4 =
      requestOfWords (w0 &&& v0) (w1 &&& v1) (w2 &&& v2) (w3 &&& v3) (w4 &&& v4) := by
  unfold requestOfWords
  rw [BitVec.and_append, BitVec.and_append, BitVec.and_append, BitVec.and_append]

end

/-- A request is the word of its five 32-bit words. -/
theorem requestOfWords_fields (q : Request) :
    requestOfWords (q.extractLsb' 128 32) (q.extractLsb' 96 32) (q.extractLsb' 64 32) (q.extractLsb' 32 32)
      (q.extractLsb' 0 32) = q := by
  have join {a b c : Nat} (h : a = b + c) (n : Nat) :
      q.extractLsb' a n ++ q.extractLsb' b c = q.extractLsb' b (n + c) :=
    BitVec.extractLsb'_append_extractLsb'_eq_extractLsb' h
  unfold requestOfWords
  rw [join (a := 128) (b := 96) rfl, join (a := 96) (b := 64) rfl, join (a := 64) (b := 32) rfl,
    join (a := 32) (b := 0) rfl]
  exact BitVec.extractLsb'_eq_self

/-- A word's low part keeps its bits under a mask of ones there and loses the rest. -/
theorem append_and_mask {m n : Nat} (x : BitVec m) (y : BitVec n) :
    (x ++ y) &&& (BitVec.allOnes m ++ 0#n) = x ++ 0#n := by
  rw [BitVec.and_append, BitVec.and_allOnes, BitVec.and_zero]

/-! ### Numbers -/

theorem append_toNat {m n : Nat} (x : BitVec m) (y : BitVec n) : (x ++ y).toNat = x.toNat * 2 ^ n + y.toNat := by
  rw [BitVec.toNat_append, ← Nat.shiftLeft_add_eq_or_of_lt y.isLt, Nat.shiftLeft_eq]

theorem requestOfWords_toNat (w0 w1 w2 w3 w4 : BitVec 32) :
    (requestOfWords w0 w1 w2 w3 w4).toNat =
      w0.toNat * 2 ^ 128 + w1.toNat * 2 ^ 96 + w2.toNat * 2 ^ 64 + w3.toNat * 2 ^ 32 + w4.toNat := by
  unfold requestOfWords
  rw [append_toNat, append_toNat, append_toNat, append_toNat]
  omega

/-- The number an encoded UPDATE is: each operand times the weight of its field's lowest bit (R61). -/
theorem encode_update_toNat (slot : Word) (a b : Weight) (p n : Pixel) :
    (encode (.update slot a b p n)).toNat =
      2 ^ 156 + slot.toNat * 2 ^ 128 + a.toNat * 2 ^ 96 + b.toNat * 2 ^ 64 +
        p.red.toNat * 2 ^ 48 + p.green.toNat * 2 ^ 40 + p.blue.toNat * 2 ^ 32 +
        n.red.toNat * 2 ^ 16 + n.green.toNat * 2 ^ 8 + n.blue.toNat := by
  unfold encode
  rw [requestOfWords_toNat]
  simp only [append_toNat, BitVec.toNat_ofNat]
  omega

/-- The number an encoded INTERP is (R62). -/
theorem encode_interp_toNat (c : Channel) (a : Word) :
    (encode (.interp c a)).toNat = 2 ^ 157 + (codeOfChannel c).toNat * 2 ^ 144 + a.toNat * 2 ^ 128 := by
  unfold encode
  rw [requestOfWords_toNat]
  simp only [append_toNat, BitVec.toNat_ofNat]
  omega

theorem channelOfCode_eq_some_iff (k : BitVec 2) (c : Channel) : channelOfCode k = some c ↔ k = codeOfChannel c := by
  unfold channelOfCode
  cases c <;> split_ifs <;> simp_all [codeOfChannel]

theorem channelOfCode_eq_none_iff (k : BitVec 2) : channelOfCode k = none ↔ k = 3#2 := by
  revert k
  decide

end Sys2Proof
end

