-- ==== Sys2Proof/Laws/State.lean ====
section
/-! SUPPORT. What each update of the state does to each field, so that no later proof unfolds a record update. -/

namespace Sys2Proof.Machine

@[simp] theorem State.setRes_res (s : State) (m : Memory) : (s.setRes m).res = m := rfl
@[simp] theorem State.setRes_lut (s : State) (m : Memory) : (s.setRes m).lut = s.lut := rfl
@[simp] theorem State.setRes_stream (s : State) (m : Memory) : (s.setRes m).stream = s.stream := rfl
@[simp] theorem State.setRes_responses (s : State) (m : Memory) : (s.setRes m).responses = s.responses := rfl
@[simp] theorem State.setRes_observed (s : State) (m : Memory) : (s.setRes m).observed = s.observed := rfl

@[simp] theorem State.setLut_res (s : State) (m : Memory) : (s.setLut m).res = s.res := rfl
@[simp] theorem State.setLut_lut (s : State) (m : Memory) : (s.setLut m).lut = m := rfl
@[simp] theorem State.setLut_stream (s : State) (m : Memory) : (s.setLut m).stream = s.stream := rfl
@[simp] theorem State.setLut_responses (s : State) (m : Memory) : (s.setLut m).responses = s.responses := rfl
@[simp] theorem State.setLut_observed (s : State) (m : Memory) : (s.setLut m).observed = s.observed := rfl

@[simp] theorem State.setStream_res (s : State) (es : List Event) : (s.setStream es).res = s.res := rfl
@[simp] theorem State.setStream_lut (s : State) (es : List Event) : (s.setStream es).lut = s.lut := rfl
@[simp] theorem State.setStream_stream (s : State) (es : List Event) : (s.setStream es).stream = es := rfl
@[simp] theorem State.setStream_responses (s : State) (es : List Event) : (s.setStream es).responses = s.responses := rfl
@[simp] theorem State.setStream_observed (s : State) (es : List Event) : (s.setStream es).observed = s.observed := rfl

@[simp] theorem State.setResponses_res (s : State) (ws : List Response) : (s.setResponses ws).res = s.res := rfl
@[simp] theorem State.setResponses_lut (s : State) (ws : List Response) : (s.setResponses ws).lut = s.lut := rfl
@[simp] theorem State.setResponses_stream (s : State) (ws : List Response) : (s.setResponses ws).stream = s.stream := rfl
@[simp] theorem State.setResponses_responses (s : State) (ws : List Response) : (s.setResponses ws).responses = ws := rfl
@[simp] theorem State.setResponses_observed (s : State) (ws : List Response) : (s.setResponses ws).observed = s.observed := rfl

@[simp] theorem State.setObserved_res (s : State) (vs : List HostValue) : (s.setObserved vs).res = s.res := rfl
@[simp] theorem State.setObserved_lut (s : State) (vs : List HostValue) : (s.setObserved vs).lut = s.lut := rfl
@[simp] theorem State.setObserved_stream (s : State) (vs : List HostValue) : (s.setObserved vs).stream = s.stream := rfl
@[simp] theorem State.setObserved_responses (s : State) (vs : List HostValue) : (s.setObserved vs).responses = s.responses := rfl
@[simp] theorem State.setObserved_observed (s : State) (vs : List HostValue) : (s.setObserved vs).observed = vs := rfl

@[simp] theorem State.writeLutAt_res (s : State) (a : Nat) (v : Word) :
    (s.writeLutAt a v).res = s.res := rfl
@[simp] theorem State.writeLutAt_lut (s : State) (a : Nat) (v : Word) :
    (s.writeLutAt a v).lut = s.lut.write .lut a v := rfl
@[simp] theorem State.writeLutAt_stream (s : State) (a : Nat) (v : Word) :
    (s.writeLutAt a v).stream = s.stream := rfl
@[simp] theorem State.writeLutAt_responses (s : State) (a : Nat) (v : Word) :
    (s.writeLutAt a v).responses = s.responses := rfl
@[simp] theorem State.writeLutAt_observed (s : State) (a : Nat) (v : Word) :
    (s.writeLutAt a v).observed = s.observed := rfl

@[simp] theorem State.writeResAt_res (s : State) (a : Nat) (v : Word) :
    (s.writeResAt a v).res = s.res.write .res a v := rfl
@[simp] theorem State.writeResAt_lut (s : State) (a : Nat) (v : Word) :
    (s.writeResAt a v).lut = s.lut := rfl
@[simp] theorem State.writeResAt_stream (s : State) (a : Nat) (v : Word) :
    (s.writeResAt a v).stream = s.stream := rfl
@[simp] theorem State.writeResAt_responses (s : State) (a : Nat) (v : Word) :
    (s.writeResAt a v).responses = s.responses := rfl
@[simp] theorem State.writeResAt_observed (s : State) (a : Nat) (v : Word) :
    (s.writeResAt a v).observed = s.observed := rfl

@[simp] theorem State.writeRes_res (s : State) (n : Nat) (c : Channel) (v : Word) :
    (s.writeRes n c v).res = s.res.write .res (resAddr n c) v := rfl
@[simp] theorem State.writeRes_lut (s : State) (n : Nat) (c : Channel) (v : Word) :
    (s.writeRes n c v).lut = s.lut := rfl
@[simp] theorem State.writeRes_stream (s : State) (n : Nat) (c : Channel) (v : Word) :
    (s.writeRes n c v).stream = s.stream := rfl
@[simp] theorem State.writeRes_responses (s : State) (n : Nat) (c : Channel) (v : Word) :
    (s.writeRes n c v).responses = s.responses := rfl
@[simp] theorem State.writeRes_observed (s : State) (n : Nat) (c : Channel) (v : Word) :
    (s.writeRes n c v).observed = s.observed := rfl

@[simp] theorem State.writeSlot_lut (s : State) (n : Nat) (v : PerChannel Word) :
    (s.writeSlot n v).lut = s.lut := rfl
@[simp] theorem State.writeSlot_stream (s : State) (n : Nat) (v : PerChannel Word) :
    (s.writeSlot n v).stream = s.stream := rfl
@[simp] theorem State.writeSlot_responses (s : State) (n : Nat) (v : PerChannel Word) :
    (s.writeSlot n v).responses = s.responses := rfl
@[simp] theorem State.writeSlot_observed (s : State) (n : Nat) (v : PerChannel Word) :
    (s.writeSlot n v).observed = s.observed := rfl

@[simp] theorem State.respond_res (s : State) (w : Response) :
    (s.respond w).res = s.res := rfl
@[simp] theorem State.respond_lut (s : State) (w : Response) :
    (s.respond w).lut = s.lut := rfl
@[simp] theorem State.respond_stream (s : State) (w : Response) :
    (s.respond w).stream = s.stream := rfl
@[simp] theorem State.respond_responses (s : State) (w : Response) :
    (s.respond w).responses = s.responses ++ [w] := rfl
@[simp] theorem State.respond_observed (s : State) (w : Response) :
    (s.respond w).observed = s.observed := rfl

@[simp] theorem State.observe_res (s : State) (v : HostValue) :
    (s.observe v).res = s.res := rfl
@[simp] theorem State.observe_lut (s : State) (v : HostValue) :
    (s.observe v).lut = s.lut := rfl
@[simp] theorem State.observe_stream (s : State) (v : HostValue) :
    (s.observe v).stream = s.stream := rfl
@[simp] theorem State.observe_responses (s : State) (v : HostValue) :
    (s.observe v).responses = s.responses := rfl
@[simp] theorem State.observe_observed (s : State) (v : HostValue) :
    (s.observe v).observed = s.observed ++ [v] := rfl

@[simp] theorem State.commit_lut (s : State) (n : Word) (l : PerChannel Lane) :
    (s.commit n l).lut = s.lut := rfl
@[simp] theorem State.commit_stream (s : State) (n : Word) (l : PerChannel Lane) :
    (s.commit n l).stream = s.stream := rfl
@[simp] theorem State.commit_responses (s : State) (n : Word) (l : PerChannel Lane) :
    (s.commit n l).responses = s.responses ++ [pack ⟨l.red.out, l.green.out, l.blue.out⟩] := rfl
@[simp] theorem State.commit_observed (s : State) (n : Word) (l : PerChannel Lane) :
    (s.commit n l).observed = s.observed := rfl

@[simp] theorem resetBlock_res (s : State) : (resetBlock s).res = [] := rfl
@[simp] theorem resetBlock_lut (s : State) : (resetBlock s).lut = [] := rfl
@[simp] theorem resetBlock_stream (s : State) : (resetBlock s).stream = s.stream := rfl
@[simp] theorem resetBlock_responses (s : State) : (resetBlock s).responses = s.responses := rfl
@[simp] theorem resetBlock_observed (s : State) : (resetBlock s).observed = s.observed := rfl

@[simp] theorem State.reset_res : State.reset.res = [] := rfl
@[simp] theorem State.reset_lut : State.reset.lut = [] := rfl
@[simp] theorem State.reset_stream : State.reset.stream = [] := rfl
@[simp] theorem State.reset_responses : State.reset.responses = [] := rfl
@[simp] theorem State.reset_observed : State.reset.observed = [] := rfl

end Sys2Proof.Machine
end

