-- ==== Sys2Proof/Laws/Memory.lean ====
section
/-! SUPPORT. The laws of one space's memory: a read after a write to the same address, a write leaves every other
address alone, every operation keeps the canonical form, and in that form equal contents are equal lists. -/

namespace Sys2Proof.Machine

namespace Memory

@[simp] theorem find_nil (a : Nat) : find [] a = none := rfl

@[simp] theorem find_cons (b : Nat) (w : Word) (m : Memory) (a : Nat) :
    find ((b, w) :: m) a = if b = a then some w else find m a := rfl

theorem find_put_same (m : Memory) (a : Nat) (v : Word) : (m.put a v).find a = some v := by
  induction m with
  | nil => simp [put]
  | cons e m ih =>
    obtain ⟨b, w⟩ := e
    rw [put]
    split_ifs with h1 h2
    · simp
    · simp
    · simp [Ne.symm h2, ih]

theorem find_put_ne (m : Memory) {a b : Nat} (v : Word) (h : b ≠ a) : (m.put a v).find b = m.find b := by
  induction m with
  | nil => simp [put, h.symm]
  | cons e m ih =>
    obtain ⟨d, w⟩ := e
    rw [put]
    split_ifs with h1 h2
    · simp [h.symm]
    · subst h2; simp [h.symm]
    · simp [ih]

theorem find_drop_same (m : Memory) (a : Nat) : (m.drop a).find a = none := by
  induction m with
  | nil => rfl
  | cons e m ih => obtain ⟨b, w⟩ := e; rw [drop]; split_ifs with h <;> simp [ih, h]

theorem find_drop_ne (m : Memory) {a b : Nat} (h : b ≠ a) : (m.drop a).find b = m.find b := by
  induction m with
  | nil => rfl
  | cons e m ih =>
    obtain ⟨d, w⟩ := e
    rw [drop]
    split_ifs with h1
    · subst h1; simp [ih, h.symm]
    · simp [ih]

theorem read_write_same (sp : Space) (m : Memory) (a : Nat) (v : Word) :
    (m.write sp a v).read sp a = some v := by
  unfold write read
  split_ifs with h
  · rw [find_drop_same]; exact h
  · rw [find_put_same]

theorem read_write_ne (sp : Space) (m : Memory) {a b : Nat} (v : Word) (h : b ≠ a) :
    (m.write sp a v).read sp b = m.read sp b := by
  unfold write read
  split_ifs
  · rw [find_drop_ne m h]
  · rw [find_put_ne m v h]

/-! ### The canonical form -/

theorem rising_mono {m : Memory} {lo lo' : Nat} (h : lo' ≤ lo) (hm : m.rising lo = true) : m.rising lo' = true := by
  cases m with
  | nil => rfl
  | cons e m => simp only [rising, Bool.and_eq_true, decide_eq_true_eq] at hm ⊢; exact ⟨by omega, hm.2⟩

theorem rising_put {m : Memory} {lo a : Nat} (v : Word) (hm : m.rising lo = true) (ha : lo ≤ a) :
    (m.put a v).rising lo = true := by
  induction m generalizing lo with
  | nil => simp [put, rising, ha]
  | cons e m ih =>
    obtain ⟨b, w⟩ := e
    simp only [rising, Bool.and_eq_true, decide_eq_true_eq] at hm
    rw [put]
    split_ifs with h1 h2
    · simp only [rising, Bool.and_eq_true, decide_eq_true_eq]; exact ⟨ha, by omega, hm.2⟩
    · subst h2; simp only [rising, Bool.and_eq_true, decide_eq_true_eq]; exact ⟨ha, hm.2⟩
    · simp only [rising, Bool.and_eq_true, decide_eq_true_eq]; exact ⟨hm.1, ih hm.2 (by omega)⟩

theorem rising_drop {m : Memory} {lo : Nat} (a : Nat) (hm : m.rising lo = true) : (m.drop a).rising lo = true := by
  induction m generalizing lo with
  | nil => rfl
  | cons e m ih =>
    obtain ⟨b, w⟩ := e
    simp only [rising, Bool.and_eq_true, decide_eq_true_eq] at hm
    rw [drop]
    split_ifs with h1
    · exact rising_mono (by omega) (ih hm.2)
    · simp only [rising, Bool.and_eq_true, decide_eq_true_eq]; exact ⟨hm.1, ih hm.2⟩

theorem needed_put {sp : Space} {n : Nat} {m : Memory} {a : Nat} {v : Word} (hm : m.needed sp n = true)
    (ha : a < sp.size n) (hv : sp.unlisted ≠ some v) : (m.put a v).needed sp n = true := by
  induction m with
  | nil => simp [put, needed, ha, hv]
  | cons e m ih =>
    obtain ⟨b, w⟩ := e
    simp only [needed, Bool.and_eq_true, decide_eq_true_eq] at hm
    rw [put]
    split_ifs <;> simp only [needed, Bool.and_eq_true, decide_eq_true_eq]
    · exact ⟨⟨ha, hv⟩, hm⟩
    · exact ⟨⟨ha, hv⟩, hm.2⟩
    · exact ⟨hm.1, ih hm.2⟩

theorem needed_drop {sp : Space} {n : Nat} {m : Memory} (a : Nat) (hm : m.needed sp n = true) :
    (m.drop a).needed sp n = true := by
  induction m with
  | nil => rfl
  | cons e m ih =>
    obtain ⟨b, w⟩ := e
    simp only [needed, Bool.and_eq_true, decide_eq_true_eq] at hm
    rw [drop]
    split_ifs
    · exact ih hm.2
    · simp only [needed, Bool.and_eq_true, decide_eq_true_eq]; exact ⟨hm.1, ih hm.2⟩

/-- A write inside the space keeps its memory canonical. -/
theorem wf_write {sp : Space} {n : Nat} {m : Memory} {a : Nat} (v : Word) (hm : m.wf sp n = true)
    (ha : a < sp.size n) : (m.write sp a v).wf sp n = true := by
  simp only [wf, Bool.and_eq_true] at hm ⊢
  unfold write
  split_ifs with h
  · exact ⟨rising_drop a hm.1, needed_drop a hm.2⟩
  · exact ⟨rising_put v hm.1 (Nat.zero_le a), needed_put hm.2 ha h⟩

@[simp] theorem wf_nil (sp : Space) (n : Nat) : wf sp n [] = true := rfl

theorem find_eq_none_of_rising {m : Memory} {lo a : Nat} (hm : m.rising lo = true) (ha : a < lo) :
    m.find a = none := by
  induction m generalizing lo with
  | nil => rfl
  | cons e m ih =>
    obtain ⟨b, w⟩ := e
    simp only [rising, Bool.and_eq_true, decide_eq_true_eq] at hm
    rw [find_cons, if_neg (by omega)]
    exact ih hm.2 (by omega)

theorem unlisted_ne_of_find {sp : Space} {n : Nat} {m : Memory} {a : Nat} {w : Word} (hm : m.needed sp n = true)
    (h : m.find a = some w) : sp.unlisted ≠ some w := by
  induction m with
  | nil => simp at h
  | cons e m ih =>
    obtain ⟨b, x⟩ := e
    simp only [needed, Bool.and_eq_true, decide_eq_true_eq] at hm
    rw [find_cons] at h
    split_ifs at h
    · cases h; exact hm.1.2
    · exact ih hm.2 h

theorem find_eq_of_read_eq {sp : Space} {n : Nat} {m m' : Memory} {a : Nat} (hm : m.needed sp n = true)
    (hm' : m'.needed sp n = true) (h : m.read sp a = m'.read sp a) : m.find a = m'.find a := by
  unfold read at h
  rcases hf : m.find a with _ | w <;> rcases hf' : m'.find a with _ | w' <;> rw [hf, hf'] at h
  · exact absurd h (unlisted_ne_of_find hm' hf')
  · exact absurd h.symm (unlisted_ne_of_find hm hf)
  · exact h

theorem eq_of_find_eq {m m' : Memory} {lo : Nat} (hm : m.rising lo = true) (hm' : m'.rising lo = true)
    (h : ∀ a, m.find a = m'.find a) : m = m' := by
  induction m generalizing lo m' with
  | nil =>
    cases m' with
    | nil => rfl
    | cons e' m' => obtain ⟨b, w⟩ := e'; simpa using h b
  | cons e m ih =>
    obtain ⟨b, w⟩ := e
    cases m' with
    | nil => simpa using h b
    | cons e' m' =>
      obtain ⟨d, x⟩ := e'
      simp only [rising, Bool.and_eq_true, decide_eq_true_eq] at hm hm'
      have hbd : b = d := by
        by_contra hne
        rcases Nat.lt_or_gt_of_ne hne with hlt | hlt
        · have := h b
          rw [find_cons, find_cons, if_pos rfl, if_neg (by omega), find_eq_none_of_rising hm'.2 (by omega)] at this
          cases this
        · have := h d
          rw [find_cons, find_cons, if_pos rfl, if_neg (by omega), find_eq_none_of_rising hm.2 (by omega)] at this
          cases this
      subst hbd
      have hw : w = x := by simpa using h b
      subst hw
      congr 1
      refine ih hm.2 hm'.2 fun a => ?_
      by_cases hab : b = a
      · subst hab
        rw [find_eq_none_of_rising hm.2 (by omega), find_eq_none_of_rising hm'.2 (by omega)]
      · simpa [hab] using h a

/-- Canonical memories that read the same everywhere are the same list. -/
theorem eq_of_read_eq {sp : Space} {n : Nat} {m m' : Memory} (hm : m.wf sp n = true) (hm' : m'.wf sp n = true)
    (h : ∀ a, m.read sp a = m'.read sp a) : m = m' := by
  simp only [wf, Bool.and_eq_true] at hm hm'
  exact eq_of_find_eq hm.1 hm'.1 fun a => find_eq_of_read_eq hm.2 hm'.2 (h a)

end Memory

end Sys2Proof.Machine
end

