-- ==== Sys2Proof/Laws/Ops.lean ====
section
/-! SUPPORT. What the operations over the two spaces do: reads after writes, the address maps, and the canonical form
of both memories. -/

namespace Sys2Proof.Machine

@[simp] theorem code_red : code .red = 0 := rfl
@[simp] theorem code_green : code .green = 1 := rfl
@[simp] theorem code_blue : code .blue = 2 := rfl

theorem code_lt (c : Channel) : code c < 3 := by cases c <;> decide

theorem code_inj {c d : Channel} (h : code c = code d) : c = d := by
  cases c <;> cases d <;> first | rfl | simp at h

theorem lutAddr_eq (c : Channel) (i : Nat) : lutAddr c i = 257 * code c + i := rfl

theorem resAddr_eq (n : Nat) (c : Channel) : resAddr n c = 3 * n + code c := rfl

@[simp] theorem Space.size_lut (n : Nat) : Space.size n .lut = 771 := rfl

@[simp] theorem Space.size_res (n : Nat) : Space.size n .res = 3 * n := rfl

@[simp] theorem Space.unlisted_lut : Space.unlisted .lut = none := rfl

@[simp] theorem Space.unlisted_res : Space.unlisted .res = some 0#16 := rfl

theorem resAddr_inj {n m : Nat} {c d : Channel} (h : resAddr n c = resAddr m d) : n = m ∧ c = d := by
  have hc := code_lt c
  have hd := code_lt d
  rw [resAddr_eq, resAddr_eq] at h
  exact ⟨by omega, code_inj (by omega)⟩

theorem resAddr_lt {n k : Nat} (c : Channel) (h : n < k) : resAddr n c < Space.size k .res := by
  have hc := code_lt c
  rw [resAddr_eq, Space.size_res]
  omega

theorem lutAddr_lt {i : Nat} (n : Nat) (c : Channel) (h : i < 257) : lutAddr c i < Space.size n .lut := by
  have hc := code_lt c
  rw [lutAddr_eq, Space.size_lut]
  omega

/-! ### Reads after updates -/

theorem State.lutAt_congr {s t : State} (h : s.lut = t.lut) (a : Nat) : s.lutAt a = t.lutAt a := by
  unfold State.lutAt; rw [h]

theorem State.resAt_congr {s t : State} (h : s.res = t.res) (a : Nat) : s.resAt a = t.resAt a := by
  unfold State.resAt; rw [h]

theorem State.readLut_congr {s t : State} (h : s.lut = t.lut) (c : Channel) (i : Nat) :
    s.readLut c i = t.readLut c i := State.lutAt_congr h _

theorem State.readRes_congr {s t : State} (h : s.res = t.res) (n : Nat) (c : Channel) :
    s.readRes n c = t.readRes n c := State.resAt_congr h _

@[simp] theorem State.lutAt_reset (a : Nat) : State.reset.lutAt a = none := rfl

@[simp] theorem State.resAt_reset (a : Nat) : State.reset.resAt a = 0#16 := rfl

@[simp] theorem State.lutAt_writeLutAt_same (s : State) (a : Nat) (v : Word) : (s.writeLutAt a v).lutAt a = some v :=
  Memory.read_write_same .lut s.lut a v

theorem State.lutAt_writeLutAt_ne (s : State) {a b : Nat} (v : Word) (h : b ≠ a) :
    (s.writeLutAt a v).lutAt b = s.lutAt b := Memory.read_write_ne .lut s.lut v h

@[simp] theorem State.resAt_writeResAt_same (s : State) (a : Nat) (v : Word) : (s.writeResAt a v).resAt a = v := by
  unfold State.resAt
  rw [State.writeResAt_res, Memory.read_write_same]
  rfl

theorem State.resAt_writeResAt_ne (s : State) {a b : Nat} (v : Word) (h : b ≠ a) :
    (s.writeResAt a v).resAt b = s.resAt b := by
  unfold State.resAt
  rw [State.writeResAt_res, Memory.read_write_ne .res s.res v h]

/-- A residual after all three of a slot are written: the new ones in that slot, the old ones elsewhere. -/
theorem State.readRes_writeSlot (s : State) (n m : Nat) (v : PerChannel Word) (c : Channel) :
    (s.writeSlot n v).readRes m c = if m = n then v.get c else s.readRes m c := by
  have key : ∀ (t : State) (d : Channel) (w : Word),
      (t.writeRes n d w).readRes m c = if m = n ∧ c = d then w else t.readRes m c := by
    intro t d w
    by_cases h : m = n ∧ c = d
    · rw [if_pos h, h.1, h.2]; exact State.resAt_writeResAt_same t _ w
    · rw [if_neg h]; exact State.resAt_writeResAt_ne t w fun he => h (resAddr_inj he)
  unfold State.writeSlot
  rw [key, key, key]
  by_cases h : m = n
  · cases c <;> simp [h, PerChannel.get]
  · simp [h]

/-- Any residual after the commit of an UPDATE. -/
theorem State.readRes_commit (s : State) (slot : Word) (l : PerChannel Lane) (m : Nat) (c : Channel) :
    (s.commit slot l).readRes m c = if m = slot.toNat then (l.get c).res else s.readRes m c := by
  have h := State.readRes_writeSlot s slot.toNat m ⟨l.red.res, l.green.res, l.blue.res⟩ c
  rw [show (s.commit slot l).readRes m c = _ from h]
  cases c <;> rfl

/-- An entry of `RES` after the commit of an UPDATE is a new residual of the slot or the entry as it was. -/
theorem State.resAt_commit (s : State) (slot : Word) (l : PerChannel Lane) (a : Nat) :
    (∃ c, a = resAddr slot.toNat c ∧ (s.commit slot l).resAt a = (l.get c).res) ∨
      ((∀ c, a ≠ resAddr slot.toNat c) ∧ (s.commit slot l).resAt a = s.resAt a) := by
  by_cases h : ∃ c, a = resAddr slot.toNat c
  · obtain ⟨c, rfl⟩ := h
    refine .inl ⟨c, rfl, ?_⟩
    have := State.readRes_commit s slot l slot.toNat c
    rwa [if_pos rfl] at this
  · have h' : ∀ c, a ≠ resAddr slot.toNat c := fun c hc => h ⟨c, hc⟩
    refine .inr ⟨h', ?_⟩
    change ((s.writeSlot slot.toNat ⟨l.red.res, l.green.res, l.blue.res⟩).respond _).resAt a = s.resAt a
    rw [State.resAt_congr (s := State.respond _ _) (t := s.writeSlot slot.toNat _) rfl]
    unfold State.writeSlot State.writeRes
    rw [State.resAt_writeResAt_ne _ _ (h' _), State.resAt_writeResAt_ne _ _ (h' _),
      State.resAt_writeResAt_ne _ _ (h' _)]

/-! ### The canonical form of both memories -/

theorem State.memWf_iff (n : Nat) (s : State) :
    s.memWf n = true ↔ s.lut.wf .lut n = true ∧ s.res.wf .res n = true := by
  unfold State.memWf; rw [Bool.and_eq_true]

theorem State.memWf_congr {s t : State} {n : Nat} (hl : s.lut = t.lut) (hr : s.res = t.res) :
    s.memWf n = t.memWf n := by unfold State.memWf; rw [hl, hr]

theorem State.memWf_writeLutAt {s : State} {n a : Nat} (v : Word) (h : s.memWf n = true)
    (ha : a < Space.size n .lut) : (s.writeLutAt a v).memWf n = true := by
  rw [State.memWf_iff] at h ⊢
  exact ⟨Memory.wf_write v h.1 ha, h.2⟩

theorem State.memWf_writeResAt {s : State} {n a : Nat} (v : Word) (h : s.memWf n = true)
    (ha : a < Space.size n .res) : (s.writeResAt a v).memWf n = true := by
  rw [State.memWf_iff] at h ⊢
  exact ⟨h.1, Memory.wf_write v h.2 ha⟩

theorem State.memWf_commit {s : State} {n : Nat} (slot : Word) (l : PerChannel Lane) (h : s.memWf n = true)
    (hs : slot.toNat < n) : (s.commit slot l).memWf n = true := by
  have h1 := State.memWf_writeResAt l.red.res h (resAddr_lt .red hs)
  have h2 := State.memWf_writeResAt l.green.res h1 (resAddr_lt .green hs)
  exact State.memWf_writeResAt l.blue.res h2 (resAddr_lt .blue hs)

end Sys2Proof.Machine
end

