-- ==== Sys2Proof/Laws/Stages.lean ====
section
/-! SUPPORT. What each stage computes, as arithmetic on Nat and Int: one lemma per stage function. -/

namespace Sys2Proof.Machine

@[simp] theorem wUnit_eq : Config.wUnit = 16842752 := rfl
@[simp] theorem lutN_eq : Config.lutN = 257 := rfl
@[simp] theorem nch_eq : Config.nch = 3 := rfl
@[simp] theorem blendShift_eq : Config.blendShift = 16 := rfl
@[simp] theorem alphaW_eq : Config.alphaW = 8 := rfl
@[simp] theorem roundBias_eq : Config.roundBias = 128 := rfl
@[simp] theorem maxIntensity_eq : Config.maxIntensity = 65535 := rfl
@[simp] theorem outShift_eq : Config.outShift = 8 := rfl
@[simp] theorem expand_eq : Config.expand = 257 := rfl

theorem nSlots_pos : 0 < Config.nSlots := Nat.succ_pos _

theorem nSlots_le : Config.nSlots ≤ 65536 := Config.nSlotsLessOne.isLt

theorem slotInRange_iff (n : Nat) (slot : Word) : slotInRange n slot = true ↔ slot.toNat < n := by
  unfold slotInRange; rw [decide_eq_true_iff]

theorem weightsSum_iff (a b : Weight) : weightsSum a b = true ↔ a.toNat + b.toNat = 16842752 := by
  unfold weightsSum; rw [decide_eq_true_iff, wUnit_eq]

/-! ### The blend -/

theorem blend_eq (p n : Byte) (a b : Weight) :
    blend p n a b = (p.toNat * a.toNat + n.toNat * b.toNat) / 65536 := by
  simp [blend, blendAcc, Nat.shiftRight_eq_div_pow]

/-- Under the weight contract the 16-bit blended intensity is the exact one. -/
theorem blendWord_toNat {p n : Byte} {a b : Weight} (h : a.toNat + b.toNat = 16842752) :
    (blendWord p n a b).toNat = (p.toNat * a.toNat + n.toNat * b.toNat) / 65536 := by
  have hp : p.toNat * a.toNat ≤ 255 * a.toNat := Nat.mul_le_mul_right _ (by have := p.isLt; omega)
  have hn : n.toNat * b.toNat ≤ 255 * b.toNat := Nat.mul_le_mul_right _ (by have := n.isLt; omega)
  rw [blendWord, BitVec.toNat_ofNat, blend_eq]
  omega

/-! ### The interpolator -/

theorem tableIndex_eq (a : Word) : tableIndex a = a.toNat / 256 := by
  simp [tableIndex, Nat.shiftRight_eq_div_pow]

theorem tableAlpha_eq (a : Word) : tableAlpha a = a.toNat % 256 := rfl

theorem tableIndex_lt (a : Word) : tableIndex a < 256 := by
  have := a.isLt
  rw [tableIndex_eq]
  omega

theorem interpResult_toNat {lo hi : Word} {alpha : Nat} (h : alpha ≤ 256) :
    (interpResult lo hi alpha).toNat = (lo.toNat * (256 - alpha) + hi.toNat * alpha) / 256 := by
  have hl : lo.toNat * (256 - alpha) ≤ 65535 * (256 - alpha) :=
    Nat.mul_le_mul_right _ (by have := lo.isLt; omega)
  have hh : hi.toNat * alpha ≤ 65535 * alpha := Nat.mul_le_mul_right _ (by have := hi.isLt; omega)
  rw [interpResult, BitVec.toNat_ofNat, interpSum, Nat.shiftRight_eq_div_pow]
  change (lo.toNat * (256 - alpha) + hi.toNat * alpha) / 256 % 65536 = _
  omega

theorem zext24_toNat (v : Word) : (zext24 v).toNat = v.toNat := by
  rw [zext24, BitVec.toNat_setWidth]
  have := v.isLt
  omega

/-! ### The quantizer -/

theorem inject_eq (v r : Word) : inject v r = v.toNat + r.toInt := rfl

theorem word_toInt_bounds (r : Word) : -32768 ≤ r.toInt ∧ r.toInt ≤ 32767 := by
  have h1 := BitVec.le_two_mul_toInt (x := r)
  have h2 := BitVec.two_mul_toInt_lt (x := r)
  omega

theorem clamp_mem {v lo hi : Int} (h : lo ≤ hi) : lo ≤ clamp v lo hi ∧ clamp v lo hi ≤ hi := by
  unfold clamp
  split_ifs <;> omega

/-- The output byte is the clamped, biased value divided by 256. -/
theorem quantize_toNat (x : Int) : ((quantize x).toNat : Int) = clamp (x + 128) 0 65535 / 256 := by
  have h := clamp_mem (v := x + 128) (lo := 0) (hi := 65535) (by decide)
  rw [quantize, BitVec.toNat_ofNat, Nat.shiftRight_eq_div_pow]
  simp only [roundBias_eq, maxIntensity_eq, outShift_eq]
  omega

theorem newResidual_eq (x : Int) (o : Byte) : newResidual x o = x - 257 * o.toNat := by
  rw [newResidual, expand_eq]
  push_cast
  omega

theorem toS16_toInt {i : Int} (h1 : -32768 ≤ i) (h2 : i ≤ 32767) : (toS16 i).toInt = i := by
  rw [toS16, BitVec.toInt_ofInt]
  exact Int.bmod_eq_of_le (by omega) (by omega)

theorem quantLane_out (v r : Word) : (quantLane v r).out = quantize (inject v r) := rfl

/-- The stored residual, read back, is the exact new residual: the 16-bit write loses nothing. -/
theorem quantLane_res_toInt (v r : Word) :
    (quantLane v r).res.toInt = inject v r - 257 * ((quantLane v r).out.toNat : Int) := by
  have hv := v.isLt
  have hr := word_toInt_bounds r
  have hq := quantize_toNat (inject v r)
  have e := newResidual_eq (inject v r) (quantize (inject v r))
  change (toS16 (newResidual _ _)).toInt = _
  rw [e, quantLane_out]
  rw [inject_eq] at hq ⊢
  unfold clamp at hq
  refine toS16_toInt ?_ ?_ <;> split_ifs at hq <;> omega

theorem pack_eq_append (o : PerChannel Byte) : pack o = o.green ++ o.red ++ o.blue := by
  rw [pack]
  have := BitVec.setWidth_append_eq_shiftLeft_setWidth_or (w'' := 24) (b := o.green ++ o.red) (b' := o.blue)
  rw [BitVec.setWidth_eq, BitVec.setWidth_append_eq_shiftLeft_setWidth_or] at this
  rw [this, BitVec.shiftLeft_or_distrib, ← BitVec.shiftLeft_add]

theorem pack_toNat (o : PerChannel Byte) :
    (pack o).toNat = o.green.toNat * 65536 + o.red.toNat * 256 + o.blue.toNat := by
  have hb := o.blue.isLt
  have hr := o.red.isLt
  rw [pack_eq_append, BitVec.toNat_append, BitVec.toNat_append, ← Nat.shiftLeft_add_eq_or_of_lt hr,
    ← Nat.shiftLeft_add_eq_or_of_lt hb, Nat.shiftLeft_eq, Nat.shiftLeft_eq]
  omega

end Sys2Proof.Machine
end

