-- ==== Sys2Proof/Laws/Meaning.lean ====
section
/-! SUPPORT. What each meaning and the step can do, said once: the cases in which it answers a next state, and which
state that is. -/

namespace Sys2Proof.Machine

/-! ### INTERP -/

theorem State.interpAt_eq_some_iff (s : State) (c : Channel) (a v : Word) :
    s.interpAt c a = some v ↔
      ∃ lo hi, s.readLut c (tableIndex a) = some lo ∧ s.readLut c (tableIndex a + 1) = some hi ∧
        v = interpResult lo hi (tableAlpha a) := by
  unfold State.interpAt
  rcases s.readLut c (tableIndex a) with _ | lo <;> rcases s.readLut c (tableIndex a + 1) with _ | hi <;>
    simp [eq_comm]

theorem State.interpAt_congr {s t : State} (h : s.lut = t.lut) (c : Channel) (a : Word) :
    s.interpAt c a = t.interpAt c a := by
  unfold State.interpAt
  rw [State.readLut_congr h, State.readLut_congr h]

theorem execInterp_of_some {s : State} {c : Channel} {a v : Word} (h : s.interpAt c a = some v) :
    execInterp c a s = .next (s.respond (zext24 v)) := by
  unfold execInterp; rw [h]

theorem execInterp_of_none {s : State} {c : Channel} {a : Word} (h : s.interpAt c a = none) :
    execInterp c a s = .fault .lutUndefined := by
  unfold execInterp; rw [h]

theorem execInterp_next_iff (c : Channel) (a : Word) (s t : State) :
    execInterp c a s = .next t ↔ ∃ v, s.interpAt c a = some v ∧ t = s.respond (zext24 v) := by
  rcases h : s.interpAt c a with _ | v
  · rw [execInterp_of_none h]; simp
  · rw [execInterp_of_some h]; simp [eq_comm]

/-! ### UPDATE -/

theorem State.updateLane_eq_some_iff (s : State) (slot : Word) (a b : Weight) (p n : Pixel) (c : Channel) (l : Lane) :
    s.updateLane slot a b p n c = some l ↔
      ∃ v, s.interpAt c (blendWord (p.get c) (n.get c) a b) = some v ∧ l = quantLane v (s.readRes slot.toNat c) := by
  unfold State.updateLane
  rcases s.interpAt c (blendWord (p.get c) (n.get c) a b) with _ | v <;> simp [eq_comm]

theorem PerChannel.get_red {α : Type} (t : PerChannel α) : t.get .red = t.red := rfl
theorem PerChannel.get_green {α : Type} (t : PerChannel α) : t.get .green = t.green := rfl
theorem PerChannel.get_blue {α : Type} (t : PerChannel α) : t.get .blue = t.blue := rfl

/-- UPDATE answers a next state exactly when the contract holds and every channel finds its two table entries, and
then that state is the commit of the three lanes. -/
theorem updateWith_next_iff (k : Nat) (slot : Word) (a b : Weight) (p n : Pixel) (s t : State) :
    updateWith k slot a b p n s = .next t ↔
      slot.toNat < k ∧ a.toNat + b.toNat = 16842752 ∧
        ∃ l : PerChannel Lane, (∀ c, s.updateLane slot a b p n c = some (l.get c)) ∧ t = s.commit slot l := by
  unfold updateWith
  by_cases h1 : slot.toNat < k
  · by_cases h2 : a.toNat + b.toNat = 16842752
    · rw [if_neg (by simp [(slotInRange_iff k slot).2 h1]), if_neg (by simp [(weightsSum_iff a b).2 h2])]
      constructor
      · intro h
        split at h
        · rename_i r g bl hr hg hb
          cases h
          exact ⟨h1, h2, ⟨r, g, bl⟩, fun c => by cases c <;> assumption, rfl⟩
        · cases h
      · rintro ⟨-, -, l, hl, rfl⟩
        have hr := hl .red
        have hg := hl .green
        have hb := hl .blue
        rw [hr, hg, hb]
        rfl
    · have hw : weightsSum a b = false := by rw [← Bool.not_eq_true, weightsSum_iff]; exact h2
      rw [if_neg (by simp [(slotInRange_iff k slot).2 h1]), if_pos hw]
      simp [h2]
  · have hs : slotInRange k slot = false := by rw [← Bool.not_eq_true, slotInRange_iff]; exact h1
    rw [if_pos hs]
    simp [h1]

theorem updateWith_slotOutOfRange {k : Nat} {slot : Word} (h : k ≤ slot.toNat) (a b : Weight) (p n : Pixel)
    (s : State) : updateWith k slot a b p n s = .refused .slotOutOfRange := by
  have hs : slotInRange k slot = false := by rw [← Bool.not_eq_true, slotInRange_iff]; omega
  unfold updateWith; rw [if_pos hs]

theorem updateWith_weightSum {k : Nat} {slot : Word} (h : slot.toNat < k) {a b : Weight}
    (hw : a.toNat + b.toNat ≠ 16842752) (p n : Pixel) (s : State) :
    updateWith k slot a b p n s = .refused .weightSum := by
  have hw' : weightsSum a b = false := by rw [← Bool.not_eq_true, weightsSum_iff]; exact hw
  unfold updateWith
  rw [if_neg (by simp [(slotInRange_iff k slot).2 h]), if_pos hw']

theorem updateWith_lutUndefined {k : Nat} {slot : Word} (h : slot.toNat < k) {a b : Weight}
    (hw : a.toNat + b.toNat = 16842752) {p n : Pixel} {s : State} {c : Channel}
    (hc : s.updateLane slot a b p n c = none) : updateWith k slot a b p n s = .fault .lutUndefined := by
  unfold updateWith
  rw [if_neg (by simp [(slotInRange_iff k slot).2 h]), if_neg (by simp [(weightsSum_iff a b).2 hw])]
  cases c <;> rw [hc] <;> split <;> simp_all

/-! ### Operations, events and the step -/

@[simp] theorem exec_update (slot : Word) (a b : Weight) (p n : Pixel) (s : State) :
    exec (.update slot a b p n) s = updateWith Config.nSlots slot a b p n s := rfl

@[simp] theorem exec_interp (c : Channel) (a : Word) (s : State) : exec (.interp c a) s = execInterp c a s := rfl

/-- Everything an operation that answers a next state can have done. -/
theorem exec_next_cases {i : Instr} {s t : State} (h : exec i s = .next t) :
    (∃ c a v, i = .interp c a ∧ s.interpAt c a = some v ∧ t = s.respond (zext24 v)) ∨
      ∃ slot a b p n, ∃ l : PerChannel Lane, i = .update slot a b p n ∧ slot.toNat < Config.nSlots ∧
        a.toNat + b.toNat = 16842752 ∧ (∀ c, s.updateLane slot a b p n c = some (l.get c)) ∧ t = s.commit slot l := by
  cases i with
  | update slot a b p n =>
    obtain ⟨h1, h2, l, h3, h4⟩ := (updateWith_next_iff _ _ _ _ _ _ _ _).1 h
    exact .inr ⟨slot, a, b, p, n, l, rfl, h1, h2, h3, h4⟩
  | interp c a =>
    obtain ⟨v, h1, h2⟩ := (execInterp_next_iff _ _ _ _).1 h
    exact .inl ⟨c, a, v, rfl, h1, h2⟩

theorem onRequest_of_op {q : Request} {i : Instr} (h : decode q = .op i) (s : State) : onRequest q s = exec i s := by
  unfold onRequest; rw [h]

theorem onRequest_of_invalid {q : Request} {why : Reserved} (h : decode q = .invalid why) (s : State) :
    onRequest q s = .refused (.reservedEncoding why) := by
  unfold onRequest; rw [h]

theorem onRequest_next_iff (q : Request) (s t : State) :
    onRequest q s = .next t ↔ ∃ i, decode q = .op i ∧ exec i s = .next t := by
  rcases h : decode q with i | why
  · rw [onRequest_of_op h]; simp
  · rw [onRequest_of_invalid h]; simp

theorem hostLutWrite_next_iff (n a : Nat) (v : Word) (s t : State) :
    hostLutWrite n a v s = .next t ↔ a < 771 ∧ t = s.writeLutAt a v := by
  unfold hostLutWrite
  rw [Space.size_lut]
  split_ifs with h <;> simp [h, eq_comm]

theorem hostLutRead_next_iff (n a : Nat) (s t : State) :
    hostLutRead n a s = .next t ↔ a < 771 ∧ ∃ v, s.lutAt a = some v ∧ t = s.observe (.lutEntry v) := by
  unfold hostLutRead
  rw [Space.size_lut]
  split_ifs with h
  · rcases s.lutAt a with _ | v <;> simp [h, eq_comm]
  · simp [h]

theorem hostResWrite_next_iff (n a : Nat) (v : Word) (s t : State) :
    hostResWrite n a v s = .next t ↔ a < 3 * n ∧ t = s.writeResAt a v := by
  unfold hostResWrite
  rw [Space.size_res]
  split_ifs with h <;> simp [h, eq_comm]

theorem hostResRead_next_iff (n a : Nat) (s t : State) :
    hostResRead n a s = .next t ↔ a < 3 * n ∧ t = s.observe (.residual (s.resAt a)) := by
  unfold hostResRead
  rw [Space.size_res]
  split_ifs with h <;> simp [h, eq_comm]

/-- A host read of a response always answers: with the oldest one waiting, or with nothing. -/
theorem hostReadResponse_next_iff (s t : State) :
    hostReadResponse s = .next t ↔
      (s.responses = [] ∧ t = s) ∨
        ∃ w ws, s.responses = w :: ws ∧ t = (s.setResponses ws).observe (.response w) := by
  unfold hostReadResponse
  rcases h : s.responses with _ | ⟨w, ws⟩ <;> simp [eq_comm]

/-- Everything a step that answers a next state can have done. -/
theorem step_next_cases {s t : State} (h : step s = .next t) :
    (s.stream = [] ∧ t = s) ∨
      ∃ e es, s.stream = e :: es ∧ runEvent Config.nSlots e (s.setStream es) = .next t := by
  unfold step advance at h
  rcases hs : s.stream with _ | ⟨e, es⟩ <;> rw [hs] at h
  · cases h; exact .inl ⟨rfl, rfl⟩
  · exact .inr ⟨e, es, rfl, h⟩

theorem step_of_cons {s : State} {e : Event} {es : List Event} (h : s.stream = e :: es) :
    step s = runEvent Config.nSlots e (s.setStream es) := by
  unfold step advance; rw [h]

theorem step_of_nil {s : State} (h : s.stream = []) : step s = .next s := by
  unfold step advance; rw [h]

theorem step_lutWrite {s : State} {es : List Event} {a : Nat} {v : Word} (h : s.stream = .lutWrite a v :: es)
    (ha : a < 771) : step s = .next ((s.setStream es).writeLutAt a v) :=
  (step_of_cons h).trans ((hostLutWrite_next_iff _ _ _ _ _).2 ⟨ha, rfl⟩)

theorem step_request {s : State} {es : List Event} {q : Request} {i : Instr} (h : s.stream = .request q :: es)
    (hq : decode q = .op i) : step s = exec i (s.setStream es) :=
  (step_of_cons h).trans (onRequest_of_op hq _)

/-- A run of one more step than `k`, when the first step answers. -/
theorem runSteps_succ {k : Nat} {s t : State} (h : step s = .next t) : runSteps (k + 1) s = runSteps k t := by
  rw [runSteps, h]

/-- A run of operations, when the first answers. -/
theorem execAll_cons {i : Instr} {is : List Instr} {s t : State} (h : exec i s = .next t) :
    execAll (i :: is) s = execAll is t := by
  rw [execAll, h]

end Sys2Proof.Machine
end

