-- ==== Sys2Proof/Laws/PerInstr.lean ====
section
/-! SUPPORT. One family of facts per operation: an encoded operation meets its row of spec/opcode_table.json
(spec/30_encoding.md R68, the masks and match values). -/

namespace Sys2Proof.Laws

/-- The encoding of `i`, under its row's mask, is its row's match value. -/
def RowMatch.Statement (i : Instr) : Prop := encode i &&& i.mask = i.matchValue

theorem RowMatch.update (slot : Word) (icPrev icNext : Weight) (prev next : Pixel) :
    RowMatch.Statement (.update slot icPrev icNext prev next) := by
  unfold RowMatch.Statement encode Instr.mask Instr.matchValue
  rw [requestOfWords_and]
  have pixel (p : Pixel) : (0#8 ++ p.red ++ p.green ++ p.blue) &&& 0xFF000000#32 = 0#32 := by
    have h1 := BitVec.and_append (x₁ := 0#8) (x₂ := 0xFF#8) (y₁ := p.red) (y₂ := 0#8)
    have h2 := BitVec.and_append (x₁ := 0#8 ++ p.red) (x₂ := 0xFF#8 ++ 0#8) (y₁ := p.green) (y₂ := 0#8)
    have h3 := BitVec.and_append (x₁ := 0#8 ++ p.red ++ p.green) (x₂ := 0xFF#8 ++ 0#8 ++ 0#8) (y₁ := p.blue)
      (y₂ := 0#8)
    rw [BitVec.zero_and, BitVec.and_zero] at h1
    rw [h1, BitVec.and_zero] at h2
    rw [h2, BitVec.and_zero] at h3
    exact h3
  congr 1
  · exact append_and_mask (1#4 ++ 0#12) slot
  · exact append_and_mask 0#7 icPrev
  · exact append_and_mask 0#7 icNext
  · exact pixel prev
  · exact pixel next

theorem RowMatch.interp (ch : Channel) (arg : Word) : RowMatch.Statement (.interp ch arg) := by
  unfold RowMatch.Statement encode Instr.mask Instr.matchValue
  rw [requestOfWords_and]
  congr 1
  have := BitVec.and_append (x₁ := 2#4 ++ 0#10 ++ codeOfChannel ch) (x₂ := 0xFFFC#16) (y₁ := arg) (y₂ := 0#16)
  rw [BitVec.and_zero] at this
  refine Eq.trans this ?_
  cases ch <;> rfl

end Sys2Proof.Laws
end

