-- ==== Sys2Proof/Laws/Run.lean ====
section
/-! SUPPORT. What one step of a run does, by the outcome of the machine's step. -/

namespace Sys2Proof.Machine

theorem State.skipEvent_res (s : State) : s.skipEvent.res = s.res := rfl
theorem State.skipEvent_lut (s : State) : s.skipEvent.lut = s.lut := rfl
theorem State.skipEvent_stream (s : State) : s.skipEvent.stream = s.stream.tail := rfl
theorem State.skipEvent_responses (s : State) : s.skipEvent.responses = s.responses := rfl
theorem State.skipEvent_observed (s : State) : s.skipEvent.observed = s.observed := rfl

theorem Run.advance_of_next {r : Run} {t : State} (h : step r.state = .next t) : r.advance = ⟨t, r.marks⟩ := by
  unfold Run.advance; rw [h]

theorem Run.advance_of_fault {r : Run} {f : Fault} (h : step r.state = .fault f) :
    r.advance = r.marked (.fault f) := by
  unfold Run.advance; rw [h]

theorem Run.advance_of_refused {r : Run} {w : Refusal} (h : step r.state = .refused w) :
    r.advance = r.marked (.refused w) := by
  unfold Run.advance; rw [h]

/-- Everything one step of a run can do: the machine's step, or one more mark. -/
theorem Run.advance_cases (r : Run) :
    (∃ t, step r.state = .next t ∧ r.advance = ⟨t, r.marks⟩) ∨
      ∃ m, (∀ t, step r.state ≠ .next t) ∧ r.advance = r.marked m := by
  rcases h : step r.state with t | f | w
  · exact .inl ⟨t, rfl, Run.advance_of_next h⟩
  · exact .inr ⟨_, by simp, Run.advance_of_fault h⟩
  · exact .inr ⟨_, by simp, Run.advance_of_refused h⟩

/-- An operation that answers leaves what the host does next as it was. -/
theorem exec_next_stream {i : Instr} {s t : State} (h : exec i s = .next t) : t.stream = s.stream := by
  rcases exec_next_cases h with ⟨_, _, _, _, _, rfl⟩ | ⟨_, _, _, _, _, _, _, _, _, _, rfl⟩ <;> rfl

/-- A step that answers moves the host past exactly the thing it did. -/
theorem step_next_stream {s t : State} (h : step s = .next t) : t.stream = s.stream.tail := by
  rcases step_next_cases h with ⟨hs, rfl⟩ | ⟨e, es, hs, hr⟩
  · rw [hs]; rfl
  · rw [hs]
    cases e with
    | request q =>
      obtain ⟨i, -, he⟩ := (onRequest_next_iff _ _ _).1 hr
      exact exec_next_stream he
    | lutWrite a v => obtain ⟨-, rfl⟩ := (hostLutWrite_next_iff _ _ _ _ _).1 hr; rfl
    | lutRead a => obtain ⟨-, v, -, rfl⟩ := (hostLutRead_next_iff _ _ _ _).1 hr; rfl
    | resWrite a v => obtain ⟨-, rfl⟩ := (hostResWrite_next_iff _ _ _ _ _).1 hr; rfl
    | resRead a => obtain ⟨-, rfl⟩ := (hostResRead_next_iff _ _ _ _).1 hr; rfl
    | readResponse => obtain ⟨-, rfl⟩ | ⟨w, ws, -, rfl⟩ := (hostReadResponse_next_iff _ _).1 hr <;> rfl
    | reset => cases hr; rfl

end Sys2Proof.Machine
end

