-- ==== Sys2Proof/Tests/Slice0.lean ====
section
/-! SUPPORT. Tests on small states, their expected values from spec/95_test_vectors.md or by hand from the rules, and
for each statement with premises a witness that meets them all. -/

namespace Sys2Proof.Tests

open Sys2Proof Sys2Proof.Machine

/-! ### Helpers -/

/-- The next state, if there is one. -/
def after : Outcome → Option State
  | .next s => some s
  | .fault _ => none
  | .refused _ => none

/-- The refusal, if it is one. -/
def refusal : Outcome → Option Refusal
  | .next _ => none
  | .fault _ => none
  | .refused r => some r

/-- The fault, if it is one. -/
def faulted : Outcome → Option Fault
  | .next _ => none
  | .fault r => some r
  | .refused _ => none

/-- A block with these residuals and table entries, and nothing of the host's. -/
def block (res lut : Memory) : State := ⟨res, lut, [], [], []⟩

/-- All 771 entries, from a table shared by the channels. -/
def fullTable (f : Nat → Nat) : Memory := (List.range' 0 771).map fun a => (a, BitVec.ofNat 16 (f (a % 257)))

theorem find_listed (g : Nat → Word) (n b a : Nat) (h : b ≤ a ∧ a < b + n) :
    Memory.find ((List.range' b n).map fun i => (i, g i)) a = some (g a) := by
  induction n generalizing b with
  | zero => omega
  | succ n ih =>
    simp only [List.range'_succ, List.map_cons, Memory.find]
    split
    · rename_i e; rw [e]
    · exact ih (b + 1) (by omega)

/-- The constant table `T_K(0x8000)` in every channel. -/
def flat : State := block [] (fullTable fun _ => 0x8000)

/-- Entries 0 and 1 of every channel, as in `T_SQ`: 0 and 0. -/
def dark : Memory := [(0, 0), (1, 0), (257, 0), (258, 0), (514, 0), (515, 0)]

/-- The entries of `T_SQ` that P2's second update reads. -/
def fadeTable : Memory := [(63, 3968), (64, 4095), (353, 9215), (354, 9408), (705, 36480), (706, 36863)]

/-- P2's second update, on slot `n`. -/
def fade (n : Word) : Instr := .update n 0x0C0C000 0x0404000 ⟨0, 64, 255⟩ ⟨255, 192, 0⟩

/-- An UPDATE of slot `n` that reads entries 0 and 1 only. -/
def darken (n : Word) : Instr := .update n 0x1010000 0 ⟨0, 0, 0⟩ ⟨0, 0, 0⟩

/-- The red table's two first entries, 0x0100 and 0x0300 (spec/95_test_vectors.md section 3.6). -/
def pair : State := block [] [(0, 0x0100), (1, 0x0300)]

/-- A block about to see one host event. -/
def facing (e : Event) : State := ⟨[(0, 5), (1, 6)], [(3, 7)], [e], [], []⟩

/-! ### Well-formedness, one ill-formed term per check -/

theorem test_wellFormed : (darken 3).wellFormed 4 = true ∧ (Instr.interp .blue 0xFFFF).wellFormed 1 = true := by decide

theorem test_illFormed_slot : (darken 4).wellFormed 4 = false := by decide

theorem test_illFormed_weights :
    (Instr.update 0 0x1010000 1 ⟨1, 2, 3⟩ ⟨4, 5, 6⟩).wellFormed 4 = false ∧
      (Instr.update 0 0x100FFFF 0 ⟨1, 2, 3⟩ ⟨4, 5, 6⟩).wellFormed 4 = false ∧
      (Instr.update 0 0x100FFFF 1 ⟨1, 2, 3⟩ ⟨4, 5, 6⟩).wellFormed 4 = true := by decide

/-! ### Decoding, the words of spec/95_test_vectors.md section 3.5 -/

theorem test_decode_update :
    decode 0x1000000300C0C00000404000000040FF00FFC000#160 =
      .op (.update 3 0x0C0C000 0x0404000 ⟨0, 64, 255⟩ ⟨255, 192, 0⟩) := by decide

theorem test_decode_update_bad_weight_decodes :
    decode 0x1000000001FFFFFF000000000000000000000000#160 = .op (.update 0 0x1FFFFFF 0 ⟨0, 0, 0⟩ ⟨0, 0, 0⟩) := by decide

theorem test_decode_update_padding :
    decode 0x1001000001010000000000000000000000000000#160 = .invalid .paddingU ∧
      decode 0x1000000002000000000000000000000000000000#160 = .invalid .paddingU ∧
      decode 0x1000000001010000000000000100000000000000#160 = .invalid .paddingU := by decide

theorem test_decode_interp :
    decode 0x2001123400000000000000000000000000000000#160 = .op (.interp .green 0x1234) ∧
      decode 0x2002FFFF00000000000000000000000000000000#160 = .op (.interp .blue 0xFFFF) := by decide

theorem test_decode_interp_padding :
    decode 0x2003000000000000000000000000000000000000#160 = .invalid .channel ∧
      decode 0x2004000000000000000000000000000000000000#160 = .invalid .paddingI ∧
      decode 0x2000000000000000000000000000000000000001#160 = .invalid .paddingI := by decide

theorem test_decode_operation_code :
    decode 0#160 = .invalid .opCode ∧ decode 0x3000000000000000000000000000000000000000#160 = .invalid .opCode ∧
      decode 0xF000000000000000000000000000000000000000#160 = .invalid .opCode := by decide

theorem test_table_word :
    decodeTableWord 160 0x2001123400000000000000000000000000000000 = some (.interp .green 0x1234) ∧
      decodeTableWord 160 0x2003000000000000000000000000000000000000 = none := by decide

/-! ### The assembler (R70, R72) -/

theorem test_text : asmText (fade 3) = "UPDATE s3, 12632064, 4210688, (0,64,255), (255,192,0)" ∧
    asmText (.interp .green 0x1234) = "INTERP g, 4660" := by decide

theorem test_text_read_back :
    readLine (asmText (fade 3)) = some (.op (fade 3)) ∧
      readLine "INTERP b, 0xFFFF ; the top" = some (.op (.interp .blue 0xFFFF)) ∧ readLine "NOP" = none ∧
      readLine "INTERP b, 0x10000" = none := by decide

/-! ### UPDATE -/

/-- P2, update 2: `RSP` 0x241090 and `RES[3]` (-18, 50, -149). -/
theorem test_update_fade :
    ((after (updateWith 4 3 0x0C0C000 0x0404000 ⟨0, 64, 255⟩ ⟨255, 192, 0⟩
      (block [(10, 15), (11, BitVec.ofInt 16 (-2))] fadeTable))).map fun t => (t.responses, t.res)) =
      some ([0x241090], [(9, BitVec.ofInt 16 (-18)), (10, 50), (11, BitVec.ofInt 16 (-149))]) := by decide

/-- P3, update 1: the residuals saturate the bytes and neither wraps. -/
theorem test_update_saturates :
    ((after (updateWith 2 1 0x1010000 0 ⟨0, 0, 0⟩ ⟨0, 0, 0⟩
      (block [(3, 0x8000), (4, 0x7FFF), (5, BitVec.ofInt 16 (-200))]
        [(0, 0), (1, 256), (257, 65535), (258, 65279), (514, 0x8000), (515, 0x8000)]))).map
        fun t => (t.responses, t.res)) =
      some ([0xFF007F], [(3, 0x8000), (4, 0x7FFF), (5, BitVec.ofInt 16 (-71))]) := by decide

/-! ### INTERP -/

/-- Section 3.1, `T_DESC` at 0x1234. -/
theorem test_interp_descending :
    (after (exec (.interp .green 0x1234) (block [] [(275, 60927), (276, 60671)]))).map (·.responses) =
      some [0x00EDCB] := by decide

/-- Section 3.6: the second entry is read also with weight 0. -/
theorem test_interp_reads_second_entry :
    faulted (exec (.interp .red 0) (block [] [(0, 0x0100)])) = some .lutUndefined ∧
      (after (exec (.interp .red 0) pair)).map (·.responses) = some [0x000100] ∧
      (after (exec (.interp .red 0x80) pair)).map (·.responses) = some [0x000200] := by decide

/-! ### Witnesses: a concrete state and operands that meet all premises of each statement that has any -/

theorem test_witness_EncodeOfDecode :
    decode (requestOfWords 0x20020000 0 0 0 0) = .op (.interp .blue 0) := by decide

theorem test_witness_ReservedWordsAreRefused :
    (facing (.request 0)).stream = .request 0 :: [] ∧ (∃ why, decode 0 = .invalid why) :=
  ⟨rfl, .opCode, by decide⟩

theorem test_witness_StepRunsDecodedRequest :
    ((facing (.request 0x2001123400000000000000000000000000000000)).stream =
        .request 0x2001123400000000000000000000000000000000 :: [] ∧
      decode 0x2001123400000000000000000000000000000000 = .op (.interp .green 0x1234)) ∧
    ((facing (.request 0)).stream = .request 0 :: [] ∧ decode 0 = .invalid .opCode) ∧ State.reset.stream = [] :=
  ⟨⟨rfl, by decide⟩, ⟨rfl, by decide⟩, rfl⟩

theorem test_witness_PlacedRequestRunsNext :
    decodeTableWord 160 0x2000000000000000000000000000000000000000 = some (.interp .red 0) := by decide

/-- Both entries defined, the first missing, the second missing; `arg` at 0 and at its top. -/
theorem test_witness_InterpAnswersInterpolation :
    (pair.readLut .red ((0 : Word).toNat / 256) = some 0x0100 ∧
      pair.readLut .red ((0 : Word).toNat / 256 + 1) = some 0x0300) ∧
    ((block [] [(255, 0x1000), (256, 0x2000)]).readLut .red ((0xFFFF : Word).toNat / 256) = some 0x1000 ∧
      (block [] [(255, 0x1000), (256, 0x2000)]).readLut .red ((0xFFFF : Word).toNat / 256 + 1) = some 0x2000) ∧
    (block [] [(1, 5)]).readLut .red ((0 : Word).toNat / 256) = none ∧
    (block [] [(0, 5)]).readLut .red ((0 : Word).toNat / 256 + 1) = none := by decide

theorem test_witness_InterpFrame : ∃ t, exec (.interp .red 0x80) pair = .next t := ⟨pair.respond 0x200, rfl⟩

theorem test_witness_InterpolationBounds :
    0 ≤ 255 ∧ interpSum 5 9 0 = 1280 ∧ 255 ≤ 255 ∧ interpSum 0xFFFF 0xFFFF 255 = 16776960 := by decide

theorem test_witness_InterpTopBoundary :
    (block [] [(255, 0x1000), (256, 0x2000)]).readLut .red 255 = some 0x1000 ∧
      (block [] [(255, 0x1000), (256, 0x2000)]).readLut .red 256 = some 0x2000 := by decide

theorem flat_entry (c : Channel) (i : Nat) (h : i ≤ 256) : flat.readLut c i = some 0x8000 := by
  have e : Memory.find flat.lut (lutAddr c i) = some 0x8000 :=
    find_listed (fun _ => 0x8000) 771 0 _ (by cases c <;> simp [lutAddr, code, codeOfChannel, Config.lutN] <;> omega)
  simp [State.readLut, State.lutAt, Memory.read, e]

theorem test_witness_ConstantTableIsIdentity : ∀ i, i ≤ 256 → flat.readLut .blue i = some 0x8000 :=
  fun i h => flat_entry .blue i h

/-- A grid point, a non-decreasing table with two ordered inputs, and a block that holds a table. -/
theorem test_witness_InterpolationGridAndMonotone :
    (0xFF00 : Word).toNat % 256 = 0 ∧
    ((∀ i, i ≤ 255 → ((fun _ => 0x8000 : Nat → Word) i).toNat ≤ ((fun _ => 0x8000 : Nat → Word) (i + 1)).toNat) ∧
      (0 : Word).toNat ≤ (0xFFFF : Word).toNat) ∧
    ∀ i, i ≤ 256 → flat.readLut .blue i = some ((fun _ => 0x8000 : Nat → Word) i) :=
  ⟨by decide, ⟨fun _ _ => Nat.le_refl _, by decide⟩, test_witness_ConstantTableIsIdentity⟩

/-- Two channels, two inputs and two states that agree on what is read. -/
theorem test_witness_InterpReadsTwoEntries :
    (0x0080 : Word).toNat % 256 = (0x0180 : Word).toNat % 256 ∧
    pair.readLut .red ((0x0080 : Word).toNat / 256) =
      (block [] [(258, 0x0100), (259, 0x0300)]).readLut .green ((0x0180 : Word).toNat / 256) ∧
    pair.readLut .red ((0x0080 : Word).toNat / 256 + 1) =
      (block [] [(258, 0x0100), (259, 0x0300)]).readLut .green ((0x0180 : Word).toNat / 256 + 1) ∧
    ∃ t, exec (.interp .red 0x0080) pair = .next t :=
  ⟨by decide, by decide, by decide, pair.respond 0x200, rfl⟩

theorem test_witness_BlendBounds :
    (0x1010000 : Weight).toNat + (0 : Weight).toNat = 0x1010000 ∧ blendAcc 255 0 0x1010000 0 = 0xFFFF0000 := by decide

/-- Two weight pairs in order, pixels rising, falling and equal. -/
theorem test_witness_BlendClosedForm :
    (0x1010000 : Weight).toNat + (0 : Weight).toNat = 0x1010000 ∧
      (1 : Weight).toNat + (0x100FFFF : Weight).toNat = 0x1010000 ∧ (0 : Weight).toNat ≤ (0x100FFFF : Weight).toNat ∧
      (10 : Byte).toNat ≤ (200 : Byte).toNat ∧ (128 : Byte) = 128 := by decide

/-- Both ends of the residual band. -/
theorem test_witness_InjectionRange : inBand 127 ∧ inBand (BitVec.ofInt 16 (-383)) := by
  constructor <;> (unfold inBand; decide)

/-- Both ends of every regime (spec/95_test_vectors.md section 3.3). -/
theorem test_witness_QuantizerRegimes :
    inject 0 (BitVec.ofInt 16 (-129)) = -129 ∧ inject 0 (BitVec.ofInt 16 (-128)) = -128 ∧ inject 127 0 = 127 ∧
      inject 128 0 = 128 ∧ inject 65151 0 = 65151 ∧ inject 65152 0 = 65152 ∧ inject 65407 0 = 65407 ∧
      inject 65408 0 = 65408 := by decide

/-- Both ends of each range of `k`. -/
theorem test_witness_ExactByteOutputs :
    (0 ≤ 127 ∨ 0 = 255) ∧ (127 ≤ 127 ∨ 127 = 255) ∧ (255 ≤ 127 ∨ 255 = 255) ∧ (128 ≤ 128 ∧ 128 ≤ 254) ∧
      (128 ≤ 254 ∧ 254 ≤ 254) ∧ (129 ≤ 129 ∧ 129 ≤ 254) ∧
      quantLane (BitVec.ofNat 16 (257 * 129)) 0 = ⟨130, BitVec.ofInt 16 (-257)⟩ := by decide

/-- A residual of the band, and intensities at the ends of the three ranges of the injected value. -/
theorem test_witness_ResidualRange :
    inBand 0 ∧ inject 0 (BitVec.ofInt 16 (-129)) < -128 ∧
      (-128 ≤ inject 0 (BitVec.ofInt 16 (-128)) ∧ inject 65407 0 ≤ 65407) ∧ 65408 ≤ inject 65408 0 :=
  ⟨by unfold inBand; decide, by decide, by decide, by decide⟩

theorem test_witness_QuantizerSaturates :
    inject 0 (BitVec.ofInt 16 (-129)) + 0x80 < 0 ∧ inject 65408 0 + 0x80 > 0xFFFF := by decide

/-- A slot 0 update that completes, whatever the number of slots. -/
theorem test_witness_UpdateFrame : ∃ t, exec (darken 0) (block [(1, 3)] dark) = .next t :=
  ⟨(block [(1, 3)] dark).respond 0, rfl⟩

theorem test_witness_ExactnessAfterUpdate : ∃ t, exec (darken 0) (block [(1, 3)] dark) = .next t :=
  test_witness_UpdateFrame

/-- Two updates of slot 0, the residuals in the band and every calibrated intensity 0. -/
theorem test_witness_ConservationOverUpdates :
    (∀ i ∈ [darken 0, darken 0], isUpdateOf 0 i = true) ∧ (∃ t, execAll [darken 0, darken 0] (block [] dark) = .next t) ∧
      inBand ((block [] dark).readRes (0 : Word).toNat .green) ∧
      (∀ i ∈ [darken 0, darken 0], calibratedOf (block [] dark) .green i = 0) ∧ 0 < [darken 0, darken 0].length :=
  ⟨by decide, ⟨((block [] dark).respond 0).respond 0, rfl⟩, by unfold inBand; decide, by decide, by decide⟩

/-- P2's second update as the reference function's table of values has it, on slot 0. -/
theorem test_witness_UpdateFollowsReferenceFunction :
    ∃ (s : State) (prev next : Pixel) (lo hi : Channel → Word) (b v o : Channel → Nat) (x : Channel → Int),
      (0 : Word).toNat < Config.nSlots ∧ (0x0C0C000 : Weight).toNat + (0x0404000 : Weight).toNat = 0x1010000 ∧
      (∀ c, b c = ((prev.get c).toNat * (0x0C0C000 : Weight).toNat +
        (next.get c).toNat * (0x0404000 : Weight).toNat) / 2 ^ 16) ∧
      (∀ c, s.readLut c (b c / 256) = some (lo c) ∧ s.readLut c (b c / 256 + 1) = some (hi c)) ∧
      (∀ c, v c = ((lo c).toNat * (256 - b c % 256) + (hi c).toNat * (b c % 256)) / 256) ∧
      (∀ c, x c = v c + (s.readRes (0 : Word).toNat c).toInt) ∧
      (∀ c, (o c : Int) = min (max (x c + 0x80) 0) 0xFFFF / 256) :=
  ⟨block [(1, 15), (2, BitVec.ofInt 16 (-2))] fadeTable, ⟨0, 64, 255⟩, ⟨255, 192, 0⟩,
    PerChannel.get ⟨3968, 9215, 36480⟩, PerChannel.get ⟨4095, 9408, 36863⟩, PerChannel.get ⟨16383, 24672, 49151⟩,
    PerChannel.get ⟨4094, 9287, 36861⟩, PerChannel.get ⟨16, 36, 144⟩, PerChannel.get ⟨4094, 9302, 36859⟩,
    Nat.succ_pos _, by decide, by intro c; cases c <;> decide, by intro c; cases c <;> decide,
    by intro c; cases c <;> decide, by intro c; cases c <;> decide, by intro c; cases c <;> decide⟩

/-- Four slots: slot 3 exists and slot 4 does not; a sum one above and one below; an undefined entry of the last
channel read; all defined. -/
theorem test_witness_UpdateContractChecks :
    (facing (.request 0)).stream = .request 0 :: [] ∧ (∃ why, decode 0 = .invalid why) ∧
      4 ≤ (4 : Word).toNat ∧ (3 : Word).toNat < 4 ∧ (0x1010000 : Weight).toNat + (1 : Weight).toNat ≠ 0x1010000 ∧
      (0x100FFFF : Weight).toNat + (0 : Weight).toNat ≠ 0x1010000 ∧
      (0x1010000 : Weight).toNat + (0 : Weight).toNat = 0x1010000 ∧
      (∃ c : Channel, (block [] (dark.take 5)).readLut c (blend 0 0 0x1010000 0 / 256) = none ∨
        (block [] (dark.take 5)).readLut c (blend 0 0 0x1010000 0 / 256 + 1) = none) ∧
      (∀ c : Channel, (block [] dark).readLut c (blend 0 0 0x1010000 0 / 256) ≠ none ∧
        (block [] dark).readLut c (blend 0 0 0x1010000 0 / 256 + 1) ≠ none) :=
  ⟨rfl, ⟨.opCode, by decide⟩, by decide, by decide, by decide, by decide, by decide, ⟨.blue, by decide⟩,
    by intro c; cases c <;> decide⟩

/-- Two states that agree on what `darken 0` reads and differ elsewhere. -/
theorem test_witness_UpdateIsDetermined :
    (∀ c : Channel, (block [(1, 3)] dark).readLut c (blend 0 0 0x1010000 0 / 256) =
        (block [(1, 3), (4, 9)] ((0, 0) :: dark.tail ++ [(516, 1)])).readLut c (blend 0 0 0x1010000 0 / 256) ∧
      (block [(1, 3)] dark).readLut c (blend 0 0 0x1010000 0 / 256 + 1) =
        (block [(1, 3), (4, 9)] ((0, 0) :: dark.tail ++ [(516, 1)])).readLut c (blend 0 0 0x1010000 0 / 256 + 1) ∧
      (block [(1, 3)] dark).readRes (0 : Word).toNat c =
        (block [(1, 3), (4, 9)] ((0, 0) :: dark.tail ++ [(516, 1)])).readRes (0 : Word).toNat c) ∧
    ∃ t, exec (darken 0) (block [(1, 3)] dark) = .next t :=
  ⟨by intro c; cases c <;> decide, test_witness_UpdateFrame⟩

/-- Red alike, green and blue different in the pixels, the tables and the residuals. -/
theorem test_witness_ChannelsAreIndependent :
    (⟨0, 0, 0⟩ : Pixel).get .red = (⟨0, 1, 255⟩ : Pixel).get .red ∧
    (∀ i, i ≤ 256 → (block [(1, 3)] dark).readLut .red i =
      (block [(2, 9)] [(0, 0), (1, 0), (258, 7), (259, 8), (769, 4), (770, 5)]).readLut .red i) ∧
    (block [(1, 3)] dark).readRes (0 : Word).toNat .red =
      (block [(2, 9)] [(0, 0), (1, 0), (258, 7), (259, 8), (769, 4), (770, 5)]).readRes (0 : Word).toNat .red ∧
    (∃ t, exec (.update 0 0x1010000 0 ⟨0, 0, 0⟩ ⟨0, 0, 0⟩) (block [(1, 3)] dark) = .next t) ∧
    ∃ t', exec (.update 0 0x1010000 0 ⟨0, 1, 255⟩ ⟨0, 0, 0⟩)
      (block [(2, 9)] [(0, 0), (1, 0), (258, 7), (259, 8), (769, 4), (770, 5)]) = .next t' := by
  refine ⟨by decide, fun i hi => ?_, by decide, test_witness_UpdateFrame, ?_⟩
  · have h : ∀ i : Fin 257, (block [(1, 3)] dark).readLut .red i.val =
        (block [(2, 9)] [(0, 0), (1, 0), (258, 7), (259, 8), (769, 4), (770, 5)]).readLut .red i.val := by decide +kernel
    exact h ⟨i, by omega⟩
  · exact ⟨_, rfl⟩

/-- Two slots, and updates of both. -/
theorem test_witness_UpdatesOfDifferentSlotsCommute :
    (0 : Word) ≠ 1 ∧ (block [(4, 300)] dark).memWf 2 = true ∧
    ∃ s₁ t, updateWith 2 0 0x1010000 0 ⟨0, 0, 0⟩ ⟨0, 0, 0⟩ (block [(4, 300)] dark) = .next s₁ ∧
      updateWith 2 1 0x1010000 0 ⟨0, 0, 0⟩ ⟨0, 0, 0⟩ s₁ = .next t :=
  ⟨by decide, by decide, _, _, rfl, rfl⟩

/-- INTERP and then UPDATE; UPDATE and then INTERP. -/
theorem test_witness_InterpCommutesWithEveryOperation :
    (∃ s₁ t, exec (.interp .red 0x80) (block [] dark) = .next s₁ ∧ exec (darken 0) s₁ = .next t) ∧
      ∃ s₁ t, exec (darken 0) (block [] dark) = .next s₁ ∧ exec (.interp .red 0x80) s₁ = .next t :=
  ⟨⟨_, _, rfl, rfl⟩, _, _, rfl, rfl⟩

theorem test_witness_LoadedBlockCompletes :
    (∀ c k, k ≤ 256 → flat.readLut c k ≠ none) ∧ (darken 0).wellFormed Config.nSlots = true :=
  ⟨fun c k h => by simp [flat_entry c k h], rfl⟩

/-- Each access, at the first or last address of its space; slot 0 exists whatever the number of slots. -/
theorem test_witness_HostAccessEffects :
    (256 ≤ 256 ∧ (facing (.lutWrite (lutAddr .blue 256) 9)).stream = .lutWrite (lutAddr .blue 256) 9 :: []) ∧
    (3 ≤ 256 ∧ (facing (.lutRead (lutAddr .red 3))).stream = .lutRead (lutAddr .red 3) :: [] ∧
      (facing (.lutRead (lutAddr .red 3))).readLut .red 3 = some 7) ∧
    (0 ≤ 256 ∧ (facing (.lutRead (lutAddr .red 0))).stream = .lutRead (lutAddr .red 0) :: [] ∧
      (facing (.lutRead (lutAddr .red 0))).readLut .red 0 = none) ∧
    (0 < Config.nSlots ∧ (facing (.resWrite (resAddr 0 .blue) 9)).stream = .resWrite (resAddr 0 .blue) 9 :: []) ∧
    (0 < Config.nSlots ∧ (facing (.resRead (resAddr 0 .red))).stream = .resRead (resAddr 0 .red) :: []) :=
  ⟨⟨by decide, rfl⟩, ⟨by decide, rfl, by decide⟩, ⟨by decide, rfl, by decide⟩, ⟨Nat.succ_pos _, rfl⟩,
    Nat.succ_pos _, rfl⟩

/-- The first address outside each space. -/
theorem test_witness_HostAddressOutOfRange :
    (770 < 771 ∧ (facing (.lutWrite 771 0)).stream = .lutWrite 771 0 :: []) ∧
    (770 < 771 ∧ (facing (.lutRead 771)).stream = .lutRead 771 :: []) ∧
    (3 * Config.nSlots - 1 < 3 * Config.nSlots ∧
      (facing (.resWrite (3 * Config.nSlots) 0)).stream = .resWrite (3 * Config.nSlots) 0 :: []) ∧
    (3 * Config.nSlots - 1 < 3 * Config.nSlots ∧
      (facing (.resRead (3 * Config.nSlots))).stream = .resRead (3 * Config.nSlots) :: []) := by
  have h : 0 < Config.nSlots := Nat.succ_pos _
  exact ⟨⟨by decide, rfl⟩, ⟨by decide, rfl⟩, ⟨by omega, rfl⟩, by omega, rfl⟩

theorem test_witness_TableAddresses : 256 ≤ 256 ∧ lutAddr .blue 256 = 770 ∧ 770 ≤ 770 ∧ 0 ≤ 770 := by decide

theorem test_witness_ResidualAddresses : 0 < Config.nSlots ∧ resAddr 0 .blue = 2 ∧ 2 < 3 * Config.nSlots := by
  have h : 0 < Config.nSlots := Nat.succ_pos _
  exact ⟨h, by decide, by omega⟩

/-- The two ends of the input range, where the second entry has weight 0 and weight 255. -/
theorem test_witness_OperationSeesHostWrites :
    (∃ s : State, s.stream = [.lutWrite (lutAddr .red ((0xFFFF : Word).toNat / 256)) 1,
      .lutWrite (lutAddr .red ((0xFFFF : Word).toNat / 256 + 1)) 2, .request (encode (.interp .red 0xFFFF))] ++ []) ∧
    ∃ s : State, s.stream = [.lutWrite (lutAddr .blue ((0 : Word).toNat / 256)) 1,
      .lutWrite (lutAddr .blue ((0 : Word).toNat / 256 + 1)) 2, .request (encode (.interp .blue 0))] ++ [.reset] :=
  ⟨⟨State.reset.setStream _, rfl⟩, State.reset.setStream _, rfl⟩

theorem test_witness_TableDirectiveLoads :
    ∃ s : State, s.stream = assemble (.lutf .green (tableOf fun i => 2 * i)) ++ [.readResponse] :=
  ⟨State.reset.setStream _, rfl⟩

/-- A request that completes; and steps that are none: a host access, a read of a response, a read of none, reset. -/
theorem test_witness_OneResponsePerRequest :
    (∃ t, step (pair.setStream [.request (encode (.interp .red 0x80))]) = .next t) ∧
      (∃ t, step (facing (.lutRead 3)) = .next t) ∧
      (∃ t, step ((facing .readResponse).setResponses [0xFF, 0xEE]) = .next t) ∧
      (∃ t, step (facing .readResponse) = .next t) ∧ (∃ t, step ((facing .reset).setResponses [0xFF]) = .next t) ∧
      (∀ q es, (facing (.lutRead 3)).stream ≠ .request q :: es) ∧
      (∀ q es, ((facing .readResponse).setResponses [0xFF, 0xEE]).stream ≠ .request q :: es) ∧
      (∀ q es, (facing .readResponse).stream ≠ .request q :: es) ∧
      ∀ q es, ((facing .reset).setResponses [0xFF]).stream ≠ .request q :: es :=
  ⟨⟨_, rfl⟩, ⟨_, rfl⟩, ⟨_, rfl⟩, ⟨_, rfl⟩, ⟨_, rfl⟩, fun q es h => (by cases h), fun q es h => (by cases h),
    fun q es h => (by cases h), fun q es h => (by cases h)⟩

/-- Two responses waiting, one waiting, none waiting. -/
theorem test_witness_HostReadsResponses :
    (facing .readResponse).stream = .readResponse :: [] ∧
      ((facing .readResponse).setResponses [0xFF, 0xEE]).responses = 0xFF :: [0xEE] ∧
      ((facing .readResponse).setResponses [0xFF]).responses = 0xFF :: [] ∧ (facing .readResponse).responses = [] :=
  ⟨rfl, rfl, rfl, rfl⟩

/-- The oldest response is the one read. -/
theorem test_read_oldest_response :
    (after (step ((facing .readResponse).setResponses [0xFF, 0xEE]))).map (fun t => (t.responses, t.observed)) =
      some ([0xEE], [.response 0xFF]) := by decide

/-- Section 3.6, the table from reset: the INTERP faults, the run goes on, and the same INTERP then answers. -/
theorem test_run_goes_on_after_fault :
    let r := (Run.ofStream [.lutWrite 0 0x0100, .request (encode (.interp .red 0)), .lutWrite 1 0x0300,
      .request (encode (.interp .red 0))]).finish
    r.state.responses = [0x000100] ∧ r.marks = [.fault .lutUndefined] ∧ r.successful = false := by decide

/-- A step of each outcome. -/
theorem test_witness_RunMarksAccumulate :
    (∃ t, step (facing (.lutRead 3)) = .next t) ∧
      step ((block [] []).setStream [.request (encode (.interp .red 0))]) = .fault .lutUndefined ∧
      step (facing (.lutRead 0)) = .refused .hostReadUndefined := ⟨⟨_, rfl⟩, rfl, rfl⟩

theorem test_witness_SuccessfulRunsAreRunsOfSteps :
    ∃ t, runSteps 1 (Run.mk (facing (.lutRead 3)) [.fault .lutUndefined]).state = .next t := ⟨_, rfl⟩

/-- A request and the read of its response: an unmarked run, which has then ended. -/
theorem test_witness_HostStreamIsWorkedOff :
    let r : Run := ⟨pair.setStream [.request (encode (.interp .red 0x80)), .readResponse], []⟩
    r.finish.marks = r.marks ∧ r.finish.ended = true := by decide

theorem test_witness_ResetEventClears : (facing .reset).stream = .reset :: [] := rfl

/-- Canonical memories that list something in both spaces, and a step from them. -/
theorem test_witness_StepKeepsMemoryCanonical :
    (facing (.lutWrite 770 5)).memWf Config.nSlots = true ∧ ∃ t, step (facing (.lutWrite 770 5)) = .next t :=
  ⟨by
    have h : 0 < Config.nSlots := Nat.succ_pos _
    have h0 : 0 < 3 * Config.nSlots := by omega
    have h1 : 1 < 3 * Config.nSlots := by omega
    simp [State.memWf, Memory.wf, Memory.rising, Memory.needed, Space.size, Space.unlisted, facing, Config.nch,
      Config.lutN, h0, h1], _, rfl⟩

/-- Residuals in the band, one at its lower end, and the host about to write the upper end. -/
theorem test_witness_StepKeepsResidualBand :
    ∃ s : State, s.BandInv ∧ ∃ t, step s = .next t := by
  refine ⟨⟨[(0, BitVec.ofInt 16 (-383))], [], [.resWrite 0 127], [], []⟩, ⟨fun a => ?_, ?_⟩, _, rfl⟩
  · cases a <;> simp [inBand, State.resAt, Memory.read, Memory.find, Space.unlisted]
  · simp [Event.KeepsBand, inBand]

/-- A write that changes an entry, and a reset that clears one. -/
theorem test_witness_OnlyHostWritesChangeTable :
    (∃ t, step (facing (.lutWrite 3 9)) = .next t ∧ t.lutAt 3 ≠ (facing (.lutWrite 3 9)).lutAt 3) ∧
      ∃ t, step (facing .reset) = .next t ∧ t.lutAt 3 ≠ (facing .reset).lutAt 3 :=
  ⟨⟨_, rfl, by decide⟩, _, rfl, by decide⟩

/-- A write that changes a residual, a reset that clears one, an UPDATE that changes one. -/
theorem test_witness_OnlyOwnersChangeResidual :
    (∃ t, step (facing (.resWrite 0 9)) = .next t ∧ t.readRes 0 .red ≠ (facing (.resWrite 0 9)).readRes 0 .red) ∧
      (∃ t, step (facing .reset) = .next t ∧ t.readRes 0 .red ≠ (facing .reset).readRes 0 .red) ∧
      ∃ t, step ((block [(0, 300)] dark).setStream [.request (encode (darken 0))]) = .next t ∧
        t.readRes 0 .red ≠ (block [(0, 300)] dark).readRes 0 .red :=
  ⟨⟨_, rfl, by decide⟩, ⟨_, rfl, by decide⟩, _, rfl, by decide⟩

theorem test_witness_DefinedEntriesStayDefined :
    (∀ es, (facing (.lutWrite 3 9)).stream ≠ .reset :: es) ∧ (∃ t, step (facing (.lutWrite 3 9)) = .next t) ∧
      (facing (.lutWrite 3 9)).lutAt 3 ≠ none :=
  ⟨fun es h => (by cases h), ⟨_, rfl⟩, by decide⟩

end Sys2Proof.Tests
end

section
/-! SUPPORT. The state family: what the two memories hold right after reset (spec/10_state.md R30). -/

namespace Sys2Proof.Machine

@[simp] theorem State.readRes_reset (n : Nat) (c : Channel) : State.reset.readRes n c = 0#16 :=
  State.resAt_reset (resAddr n c)

@[simp] theorem State.readLut_reset (c : Channel) (i : Nat) : State.reset.readLut c i = none :=
  State.lutAt_reset (lutAddr c i)

/-- Settles O48: neither memory lists an entry at reset, so each read gives what its space's unlisted entry reads as. -/
theorem resetValues : Obligations.ResetValues :=
  ⟨State.readRes_reset, State.readLut_reset⟩

end Sys2Proof.Machine
end

section
/-! SUPPORT. The memory family: the linear addresses of the calibration table and the entries they name
(spec/20_memory.md R41). -/

namespace Sys2Proof.Machine

/-- Two entries of the table share an address only if they are the same entry. -/
theorem lutAddr_inj {c d : Channel} {i j : Nat} (hi : i ≤ 256) (hj : j ≤ 256) (h : lutAddr c i = lutAddr d j) :
    c = d ∧ i = j := by
  rw [lutAddr_eq, lutAddr_eq] at h
  have hcode : code c = code d := by omega
  exact ⟨code_inj hcode, by omega⟩

/-- The entry at an address: the channel whose third of the space holds it, at its offset there. -/
theorem exists_lutAddr_eq {a : Nat} (ha : a ≤ 770) : ∃ c i, i ≤ 256 ∧ lutAddr c i = a := by
  by_cases hred : a < 257
  · exact ⟨.red, a, by omega, by simp [lutAddr_eq]⟩
  · by_cases hgreen : a < 514
    · exact ⟨.green, a - 257, by omega, by rw [lutAddr_eq, code_green]; omega⟩
    · exact ⟨.blue, a - 514, by omega, by rw [lutAddr_eq, code_blue]; omega⟩

/-- Settles O42: each third of the space is one channel's, so an address determines its channel and its index. -/
theorem tableAddresses : Obligations.TableAddresses := by
  refine ⟨fun i => ?formula, fun c i hi => ?range, fun a ha => ?oneEntry⟩
  case formula => simp [lutAddr_eq]
  case range =>
    have hlt : lutAddr c i < 771 := lutAddr_lt 0 c (Nat.lt_succ_of_le hi)
    exact Nat.le_of_lt_succ hlt
  case oneEntry =>
    obtain ⟨c, i, hi, rfl⟩ := exists_lutAddr_eq ha
    refine ⟨(c, i), ⟨hi, rfl⟩, fun ⟨d, j⟩ ⟨hj, hd⟩ => ?_⟩
    obtain ⟨rfl, rfl⟩ := lutAddr_inj hj hi hd
    rfl

end Sys2Proof.Machine
end

section
/-! SUPPORT. The encoding family: which request words are reserved, field by field (spec/30_encoding.md R61, R62, R67),
and that a word built from the fields of format `U` decodes. -/

namespace Sys2Proof

/-- A field of a request has a value exactly when the bits of R8 there are its number. -/
theorem field_eq_iff_bits {hi lo n : Nat} (q : Request) (k : BitVec n) (h : hi - lo + 1 = n) :
    q.extractLsb' lo n = k ↔ bits q.toNat hi lo = k.toNat := by
  rw [← BitVec.toNat_inj, BitVec.extractLsb'_toNat, Nat.shiftRight_eq_div_pow, bits, h]

/-! ### Reserved words -/

theorem decode_of_op_one {q : Request} (h : bits q.toNat 159 156 = 1) : decode q = decodeU q :=
  if_pos ((field_eq_iff_bits q 1#4 rfl).2 h)

theorem decode_of_op_two {q : Request} (h : bits q.toNat 159 156 = 2) : decode q = decodeI q := by
  have hop : q.extractLsb' 156 4 = 2#4 := (field_eq_iff_bits q 2#4 rfl).2 h
  simp [decode, hop]

theorem decode_of_op_other {q : Request} (h1 : bits q.toNat 159 156 ≠ 1) (h2 : bits q.toNat 159 156 ≠ 2) :
    decode q = .invalid .opCode := by
  rw [decode, if_neg (mt (field_eq_iff_bits q 1#4 rfl).1 h1), if_neg (mt (field_eq_iff_bits q 2#4 rfl).1 h2)]

theorem paddingUZero_iff (q : Request) :
    paddingUZero q = true ↔ bits q.toNat 155 144 = 0 ∧ bits q.toNat 127 121 = 0 ∧ bits q.toNat 95 89 = 0 ∧
      bits q.toNat 63 56 = 0 ∧ bits q.toNat 31 24 = 0 := by
  simp only [paddingUZero, Bool.and_eq_true, decide_eq_true_eq, and_assoc]
  rw [field_eq_iff_bits q 0#12 (hi := 155) rfl, field_eq_iff_bits q 0#7 (hi := 127) rfl,
    field_eq_iff_bits q 0#7 (hi := 95) rfl, field_eq_iff_bits q 0#8 (hi := 63) rfl,
    field_eq_iff_bits q 0#8 (hi := 31) rfl]
  rfl

theorem paddingIZero_iff (q : Request) :
    paddingIZero q = true ↔ bits q.toNat 155 146 = 0 ∧ bits q.toNat 127 0 = 0 := by
  simp only [paddingIZero, Bool.and_eq_true, decide_eq_true_eq]
  rw [field_eq_iff_bits q 0#10 (hi := 155) rfl, field_eq_iff_bits q 0#128 (hi := 127) rfl]
  rfl

theorem decodeU_invalid_iff (q : Request) : (∃ why, decodeU q = .invalid why) ↔ ¬ paddingUZero q = true := by
  unfold decodeU
  split_ifs with hpad <;> simp [hpad]

theorem decodeI_invalid_iff (q : Request) :
    (∃ why, decodeI q = .invalid why) ↔ ¬ paddingIZero q = true ∨ bits q.toNat 145 144 = 3 := by
  have hcode : channelOfCode (q.extractLsb' 144 2) = none ↔ bits q.toNat 145 144 = 3 :=
    (channelOfCode_eq_none_iff _).trans (field_eq_iff_bits q 3#2 rfl)
  rw [← hcode]
  unfold decodeI
  split_ifs with hpad
  · rcases hch : channelOfCode (q.extractLsb' 144 2) with _ | ch <;> simp [hpad]
  · simp [hpad]

/-- R67, the four conditions. -/
theorem decode_invalid_iff (q : Request) :
    (∃ why, decode q = .invalid why) ↔
      (bits q.toNat 159 156 = 0 ∨ 3 ≤ bits q.toNat 159 156) ∨
        (bits q.toNat 159 156 = 1 ∧ ¬ paddingUZero q = true) ∨
        (bits q.toNat 159 156 = 2 ∧ ¬ paddingIZero q = true) ∨
        (bits q.toNat 159 156 = 2 ∧ bits q.toNat 145 144 = 3) := by
  by_cases h1 : bits q.toNat 159 156 = 1
  · rw [decode_of_op_one h1, decodeU_invalid_iff]
    simp [h1]
  · by_cases h2 : bits q.toNat 159 156 = 2
    · rw [decode_of_op_two h2, decodeI_invalid_iff]
      simp [h2]
    · have hother : bits q.toNat 159 156 = 0 ∨ 3 ≤ bits q.toNat 159 156 := by omega
      exact iff_of_true ⟨.opCode, decode_of_op_other h1 h2⟩ (.inl hother)

/-! ### The fields of an encoded UPDATE -/

section
variable (slot : Word) (a b : Weight) (p n : Pixel)

theorem bits_encode_update_op : bits (encode (.update slot a b p n)).toNat 159 156 = 1 := by
  rw [encode_update_toNat]; unfold bits; omega

theorem paddingUZero_encode_update : paddingUZero (encode (.update slot a b p n)) = true := by
  rw [paddingUZero_iff, encode_update_toNat]; unfold bits; omega

theorem decode_encode_update : decode (encode (.update slot a b p n)) = .op (.update slot a b p n) := by
  have field {hi lo w : Nat} (k : BitVec w) (h : hi - lo + 1 = w)
      (hk : bits (encode (.update slot a b p n)).toNat hi lo = k.toNat) :
      (encode (.update slot a b p n)).extractLsb' lo w = k := (field_eq_iff_bits _ k h).2 hk
  simp only [encode_update_toNat, bits] at field
  rw [decode_of_op_one (bits_encode_update_op slot a b p n), decodeU,
    if_pos (paddingUZero_encode_update slot a b p n), pixelAt, pixelAt, field (hi := 143) slot rfl (by omega),
    field (hi := 120) a rfl (by omega), field (hi := 88) b rfl (by omega),
    field (hi := 55) p.red rfl (by omega), field (hi := 47) p.green rfl (by omega),
    field (hi := 39) p.blue rfl (by omega), field (hi := 23) n.red rfl (by omega),
    field (hi := 15) n.green rfl (by omega), field (hi := 7) n.blue rfl (by omega)]

end

end Sys2Proof

namespace Sys2Proof.Machine

theorem step_request_invalid {s : State} {es : List Event} {q : Request} {why : Reserved}
    (h : s.stream = .request q :: es) (hq : decode q = .invalid why) : step s = .refused (.reservedEncoding why) :=
  (step_of_cons h).trans (onRequest_of_invalid hq _)

/-- Settles O5: the four conditions read the decoder's branches off field by field; the step passes the verdict's
reason on; and the encoding of an UPDATE decodes whatever its slot and weights. -/
theorem reservedWordsAreRefused : Obligations.ReservedWordsAreRefused := by
  refine ⟨fun q => ?conditions, fun s q es hs hq => ?refused, fun slot a b p n => ?decodes⟩
  case conditions =>
    rw [decode_invalid_iff, paddingUZero_iff, paddingIZero_iff]
    simp only [not_and_or, ne_eq]
  case refused =>
    obtain ⟨why, hwhy⟩ := hq
    exact ⟨why, step_request_invalid hs hwhy⟩
  case decodes => exact ⟨encode (.update slot a b p n), decode_encode_update slot a b p n⟩

end Sys2Proof.Machine
end

section
/-! SUPPORT. The calibration family: the interpolator as the floored weighted mean of two entries, its bounds, its order
behaviour over a table, and what INTERP answers (spec/40_calibration_interpolator.md R81, R82, R84, R85). -/

namespace Sys2Proof.Machine

/-! ### The interpolation of two entries -/

theorem interpSum_div_toNat {lo hi : Word} {alpha : Nat} (h : alpha ≤ 256) :
    interpSum lo hi alpha / 256 = (interpResult lo hi alpha).toNat := (interpResult_toNat h).symm

/-- The two weights add up to 256, so the sum lies between 256 times the smaller and 256 times the larger entry. -/
theorem interpSum_between (lo hi : Word) {alpha : Nat} (h : alpha ≤ 256) :
    min lo.toNat hi.toNat * 256 ≤ interpSum lo hi alpha ∧ interpSum lo hi alpha ≤ max lo.toNat hi.toNat * 256 := by
  have split (x : Nat) : x * 256 = x * (256 - alpha) + x * alpha := by
    rw [← Nat.mul_add, Nat.sub_add_cancel h]
  rw [split, split]
  exact ⟨Nat.add_le_add (Nat.mul_le_mul_right _ (Nat.min_le_left ..)) (Nat.mul_le_mul_right _ (Nat.min_le_right ..)),
    Nat.add_le_add (Nat.mul_le_mul_right _ (Nat.le_max_left ..)) (Nat.mul_le_mul_right _ (Nat.le_max_right ..))⟩

theorem interpResult_between (lo hi : Word) {alpha : Nat} (h : alpha ≤ 256) :
    min lo.toNat hi.toNat ≤ (interpResult lo hi alpha).toNat ∧
      (interpResult lo hi alpha).toNat ≤ max lo.toNat hi.toNat := by
  obtain ⟨hmin, hmax⟩ := interpSum_between lo hi h
  rw [← interpSum_div_toNat h]
  omega

/-- R82, the closed form; the division is floored, also for a descending pair. -/
theorem interpResult_eq_add_floor (lo hi : Word) {alpha : Nat} (h : alpha ≤ 256) :
    ((interpResult lo hi alpha).toNat : Int) = lo.toNat + ((hi.toNat : Int) - lo.toNat) * alpha / 256 := by
  have hsum : ((lo.toNat * (256 - alpha) + hi.toNat * alpha : Nat) : Int) =
      ((hi.toNat : Int) - lo.toNat) * alpha + lo.toNat * 256 := by
    push_cast [h]
    ring
  rw [interpResult_toNat h, Int.natCast_ediv, hsum, Nat.cast_ofNat,
    Int.add_mul_ediv_right _ _ (by decide), add_comm]

@[simp] theorem interpResult_zero (lo hi : Word) : interpResult lo hi 0 = lo := by
  apply BitVec.eq_of_toNat_eq
  rw [interpResult_toNat (by decide)]
  omega

theorem interpResult_same (k : Word) {alpha : Nat} (h : alpha ≤ 256) : interpResult k k alpha = k := by
  obtain ⟨hmin, hmax⟩ := interpResult_between k k h
  rw [min_self] at hmin
  rw [max_self] at hmax
  exact BitVec.eq_of_toNat_eq (Nat.le_antisymm hmax hmin)

/-- Between rising entries the result does not fall as `alpha` grows. -/
theorem interpResult_mono {lo hi : Word} (hlh : lo.toNat ≤ hi.toNat) {alpha beta : Nat} (hab : alpha ≤ beta)
    (hb : beta ≤ 256) : (interpResult lo hi alpha).toNat ≤ (interpResult lo hi beta).toNat := by
  have hd : (0 : Int) ≤ (hi.toNat : Int) - lo.toNat := by omega
  have hmul : ((hi.toNat : Int) - lo.toNat) * alpha ≤ ((hi.toNat : Int) - lo.toNat) * beta :=
    mul_le_mul_of_nonneg_left (by exact_mod_cast hab) hd
  have hatAlpha := interpResult_eq_add_floor lo hi (hab.trans hb)
  have hatBeta := interpResult_eq_add_floor lo hi hb
  omega

/-- Settles O13: the weighted mean lies between the two entries, each at most 0xFFFF, so no width is exceeded. -/
theorem interpolationBounds : Obligations.InterpolationBounds := by
  intro lo hi alpha halpha
  have h : alpha ≤ 256 := by omega
  have hlo := lo.isLt
  have hhi := hi.isLt
  obtain ⟨-, hsum⟩ := interpSum_between lo hi h
  have hbound : interpSum lo hi alpha ≤ 16776960 := by omega
  have hparts : interpSum lo hi alpha = lo.toNat * (256 - alpha) + hi.toNat * alpha := rfl
  obtain ⟨hmin, hmax⟩ := interpResult_between lo hi h
  rw [interpSum_div_toNat h]
  exact ⟨hbound, by omega, by omega, by omega, hmin, hmax, rfl, interpResult_eq_add_floor lo hi h⟩

/-! ### The interpolation of a table -/

theorem tableAlpha_le (a : Word) : tableAlpha a ≤ 256 := by
  rw [tableAlpha_eq]
  omega

/-- R85 (a). -/
theorem interp_of_grid (t : Nat → Word) {a : Word} (h : a.toNat % 256 = 0) : interp t a = t (a.toNat / 256) := by
  rw [interp, tableAlpha_eq, h, interpResult_zero, tableIndex_eq]

theorem interp_const (k a : Word) : interp (fun _ => k) a = k := interpResult_same k (tableAlpha_le a)

section
variable {t : Nat → Word} (hstep : ∀ i, i ≤ 255 → (t i).toNat ≤ (t (i + 1)).toNat)
include hstep

theorem table_mono {i j : Nat} (hij : i ≤ j) (hj : j ≤ 256) : (t i).toNat ≤ (t j).toNat := by
  induction j, hij using Nat.le_induction with
  | base => exact Nat.le_refl _
  | succ j _ ih => exact (ih (by omega)).trans (hstep j (by omega))

/-- The result stays inside the segment of its input. -/
theorem interp_in_segment (a : Word) :
    (t (tableIndex a)).toNat ≤ (interp t a).toNat ∧ (interp t a).toNat ≤ (t (tableIndex a + 1)).toNat := by
  have hseg := hstep (tableIndex a) (Nat.le_of_lt_succ (tableIndex_lt a))
  obtain ⟨hmin, hmax⟩ := interpResult_between (t (tableIndex a)) (t (tableIndex a + 1)) (tableAlpha_le a)
  rw [Nat.min_eq_left hseg] at hmin
  rw [Nat.max_eq_right hseg] at hmax
  exact ⟨hmin, hmax⟩

/-- R85 (b): within one segment `alpha` decides; in different segments an entry of the table lies between. -/
theorem interp_mono {a b : Word} (hab : a.toNat ≤ b.toNat) : (interp t a).toNat ≤ (interp t b).toNat := by
  have ha := tableIndex_eq a
  have hb := tableIndex_eq b
  have hb256 := tableIndex_lt b
  rcases Nat.lt_or_ge (tableIndex a) (tableIndex b) with hlt | hge
  · calc (interp t a).toNat ≤ (t (tableIndex a + 1)).toNat := (interp_in_segment hstep a).2
      _ ≤ (t (tableIndex b)).toNat := table_mono hstep hlt (by omega)
      _ ≤ (interp t b).toNat := (interp_in_segment hstep b).1
  · have hidx : tableIndex a = tableIndex b := by omega
    have halpha : tableAlpha a ≤ tableAlpha b := by
      rw [tableAlpha_eq, tableAlpha_eq]
      omega
    rw [interp, interp, hidx]
    exact interpResult_mono (hstep _ (by omega)) halpha (tableAlpha_le b)

end

/-! ### The operation INTERP -/

theorem State.interpAt_of_entries {s : State} {c : Channel} {a lo hi : Word}
    (hlo : s.readLut c (tableIndex a) = some lo) (hhi : s.readLut c (tableIndex a + 1) = some hi) :
    s.interpAt c a = some (interpResult lo hi (tableAlpha a)) :=
  (State.interpAt_eq_some_iff ..).2 ⟨lo, hi, hlo, hhi, rfl⟩

theorem State.interpAt_of_undefined {s : State} {c : Channel} {a : Word}
    (h : s.readLut c (tableIndex a) = none ∨ s.readLut c (tableIndex a + 1) = none) : s.interpAt c a = none := by
  rw [Option.eq_none_iff_forall_ne_some]
  intro v hv
  obtain ⟨lo, hi, hlo, hhi, -⟩ := (State.interpAt_eq_some_iff ..).1 hv
  rcases h with h | h
  · simp [h] at hlo
  · simp [h] at hhi

/-- The response of INTERP as a number: nothing is lost, neither at 16 bits nor at 24. -/
theorem zext24_interpResult (lo hi : Word) {alpha : Nat} (h : alpha ≤ 256) :
    zext24 (interpResult lo hi alpha) = BitVec.ofNat 24 ((lo.toNat * (256 - alpha) + hi.toNat * alpha) / 256) := by
  rw [← interpResult_toNat h, ← zext24_toNat, BitVec.ofNat_toNat, BitVec.setWidth_eq]

/-- R85 (d): a block that holds the table `t` computes `interp t`. -/
theorem execInterp_of_table {t : Nat → Word} {c : Channel} {s : State}
    (h : ∀ i, i ≤ 256 → s.readLut c i = some (t i)) (a : Word) :
    execInterp c a s = .next (s.respond (zext24 (interp t a))) := by
  have hidx := tableIndex_lt a
  exact execInterp_of_some (State.interpAt_of_entries (h _ (by omega)) (h _ hidx))

/-- Settles O11: the operation answers exactly where both entries are defined, and the 16-bit result is exact. -/
theorem interpAnswersInterpolation : Obligations.InterpAnswersInterpolation := by
  intro ch arg s
  rw [← tableIndex_eq, ← tableAlpha_eq]
  have halpha := tableAlpha_le arg
  refine ⟨fun lo hi hlo hhi => ⟨?fits, ?answers⟩, fun hundef => ?faults⟩
  case fits =>
    rw [← interpResult_toNat halpha]
    exact (interpResult lo hi (tableAlpha arg)).isLt
  case answers =>
    rw [exec_interp, execInterp_of_some (State.interpAt_of_entries hlo hhi), zext24_interpResult lo hi halpha]
    rfl
  case faults => exact execInterp_of_none (State.interpAt_of_undefined hundef)

/-- Settles O15: equal entries leave the weighted mean nothing to round. -/
theorem constantTableIsIdentity : Obligations.ConstantTableIsIdentity := by
  intro ch k s hk a
  have h := execInterp_of_table (t := fun _ => k) hk a
  rwa [interp_const] at h

/-- Settles O16; for (c), the table with entry `i` at index `i` gives 0 at the inputs 0 and 1. -/
theorem interpolationGridAndMonotone : Obligations.InterpolationGridAndMonotone := by
  refine ⟨fun t a h => interp_of_grid t h, fun t hstep a b hab => interp_mono hstep hab,
    ⟨BitVec.ofNat 16, fun i hi => ?rises, 0, 1, by decide, by decide⟩, fun t ch s h a => execInterp_of_table h a⟩
  case rises =>
    rw [BitVec.toNat_ofNat, BitVec.toNat_ofNat]
    omega

end Sys2Proof.Machine
end

section
/-! SUPPORT. The temporal blend family: the accumulator as a convex combination of the two bytes, its closed form, and
the order behaviour of the blend under the weight contract (spec/41_temporal_blend.md R92, R93, R94). -/

namespace Sys2Proof.Machine

theorem blend_eq_acc_div (p n : Byte) (a b : Weight) : blend p n a b = blendAcc p n a b / 65536 := blend_eq p n a b

/-- R94 (d): exchanging the frames together with their weights. -/
theorem blendAcc_comm (p n : Byte) (a b : Weight) : blendAcc p n a b = blendAcc n p b a := Nat.add_comm ..

theorem blend_comm (p n : Byte) (a b : Weight) : blend p n a b = blend n p b a := by
  rw [blend_eq_acc_div, blendAcc_comm, ← blend_eq_acc_div]

section
variable {p n : Byte} {a b : Weight} (h : a.toNat + b.toNat = 16842752)
include h

/-! ### Bounds -/

/-- The two weights add up to the unit, so the accumulator lies between the unit times the smaller and the unit times
the larger byte. -/
theorem blendAcc_between :
    min p.toNat n.toNat * 16842752 ≤ blendAcc p n a b ∧ blendAcc p n a b ≤ max p.toNat n.toNat * 16842752 := by
  rw [← h, Nat.mul_add, Nat.mul_add]
  exact ⟨Nat.add_le_add (Nat.mul_le_mul_right _ (Nat.min_le_left ..)) (Nat.mul_le_mul_right _ (Nat.min_le_right ..)),
    Nat.add_le_add (Nat.mul_le_mul_right _ (Nat.le_max_left ..)) (Nat.mul_le_mul_right _ (Nat.le_max_right ..))⟩

theorem blendAcc_le : blendAcc p n a b ≤ 0xFFFF0000 := by
  obtain ⟨-, hmax⟩ := blendAcc_between (p := p) (n := n) h
  have hp := p.isLt
  have hn := n.isLt
  omega

/-- R94 (b). -/
theorem blend_between :
    257 * min p.toNat n.toNat ≤ blend p n a b ∧ blend p n a b ≤ 257 * max p.toNat n.toNat := by
  obtain ⟨hmin, hmax⟩ := blendAcc_between (p := p) (n := n) h
  rw [blend_eq_acc_div]
  omega

/-! ### Closed forms -/

theorem blendAcc_eq_add_mul :
    (blendAcc p n a b : Int) = 257 * p.toNat * 65536 + ((n.toNat : Int) - p.toNat) * b.toNat := by
  have ha : (a.toNat : Int) = 16842752 - b.toNat := by omega
  rw [blendAcc, Nat.cast_add, Nat.cast_mul, Nat.cast_mul, ha]
  ring

/-- R94, the closed form over the previous byte; the division is floored, also for a falling pair. -/
theorem blend_eq_add_floor :
    (blend p n a b : Int) = 257 * p.toNat + ((n.toNat : Int) - p.toNat) * b.toNat / 65536 := by
  rw [blend_eq_acc_div, Int.natCast_ediv, blendAcc_eq_add_mul h, Nat.cast_ofNat, add_comm,
    Int.add_mul_ediv_right _ _ (by decide), add_comm]

/-- R94, the closed form over the next byte: the other one with the frames exchanged. -/
theorem blend_eq_add_floor_next :
    (blend p n a b : Int) = 257 * n.toNat + ((p.toNat : Int) - n.toNat) * a.toNat / 65536 := by
  rw [blend_comm]
  exact blend_eq_add_floor (by rwa [Nat.add_comm])

/-- R94 (a). -/
theorem blend_same : blend p p a b = 257 * p.toNat := by
  obtain ⟨hmin, hmax⟩ := blend_between (p := p) (n := p) h
  omega

/-- R94 (c), rising bytes: in the closed form the product with the next weight does not fall. -/
theorem blend_mono {a' b' : Weight} (h' : a'.toNat + b'.toNat = 16842752) (hb : b.toNat ≤ b'.toNat)
    (hpn : p.toNat ≤ n.toNat) : blend p n a b ≤ blend p n a' b' := by
  have hd : (0 : Int) ≤ (n.toNat : Int) - p.toNat := by omega
  have hmul : ((n.toNat : Int) - p.toNat) * b.toNat ≤ ((n.toNat : Int) - p.toNat) * b'.toNat :=
    mul_le_mul_of_nonneg_left (by exact_mod_cast hb) hd
  have hclosed := blend_eq_add_floor (p := p) (n := n) h
  have hclosed' := blend_eq_add_floor (p := p) (n := n) h'
  omega

/-- R94 (c), falling bytes: the rising case with the frames exchanged. -/
theorem blend_anti {a' b' : Weight} (h' : a'.toNat + b'.toNat = 16842752) (hb : b.toNat ≤ b'.toNat)
    (hnp : n.toNat ≤ p.toNat) : blend p n a' b' ≤ blend p n a b := by
  rw [blend_comm p n a' b', blend_comm p n a b]
  exact blend_mono (by omega) (by omega) (by omega) hnp

end

/-! ### Extremes -/

theorem blend_full_prev (p n : Byte) : blend p n 0x1010000 0 = p.toNat * 257 := by
  have hacc : blendAcc p n 0x1010000 0 = p.toNat * 257 * 65536 := by
    rw [Nat.mul_assoc]
    exact Nat.add_zero _
  rw [blend_eq_acc_div, hacc, Nat.mul_div_cancel _ (by decide)]

/-- Settles O18: the accumulator is at most 255 times the unit, and each product is a part of it. -/
theorem blendBounds : Obligations.BlendBounds := by
  intro p n a b h
  have hacc := blendAcc_le (p := p) (n := n) h
  have hparts : blendAcc p n a b = p.toNat * a.toNat + n.toNat * b.toNat := rfl
  have hdiv := blend_eq_acc_div p n a b
  have hword : (blendWord p n a b).toNat = blend p n a b := (blendWord_toNat h).trans (blend_eq p n a b).symm
  exact ⟨hacc, by omega, by omega, by omega, by omega, hword⟩

/-- Settles O20: the closed form over `p`, the two bytes as bounds, and the exchange of the frames give the rest. -/
theorem blendClosedForm : Obligations.BlendClosedForm := by
  refine ⟨fun p n a b h => ?forms, fun p n a b a' b' h h' hb => ⟨blend_mono h h' hb, blend_anti h h' hb⟩,
    by decide, by decide⟩
  case forms =>
    obtain ⟨hmin, hmax⟩ := blend_between (p := p) (n := n) h
    exact ⟨blendAcc_eq_add_mul h, blend_eq_add_floor h, blend_eq_add_floor_next h,
      fun hpn => hpn ▸ blend_same h, hmin, hmax, blend_comm p n a b⟩

/-- Settles O19: at full weight the accumulator is a multiple of 65536; the other extreme is the exchange. -/
theorem blendExtremesExact : Obligations.BlendExtremesExact :=
  fun p n => ⟨blend_full_prev p n, (blend_comm ..).trans (blend_full_prev n p)⟩

end Sys2Proof.Machine
end

section
/-! SUPPORT. The quantizer family: the injected value, the output byte and the new residual of a channel in the three
regimes of the clamp, and the exactness of an UPDATE (spec/42_quantizer_error_feedback.md R100 to R108). -/

namespace Sys2Proof.Machine

/-! ### The injected value -/

theorem inject_bounds (v r : Word) : -32768 ≤ inject v r ∧ inject v r ≤ 98302 := by
  have hv := v.isLt
  have hr := word_toInt_bounds r
  rw [inject_eq]
  omega

theorem inject_bounds_of_inBand {v r : Word} (h : inBand r) : -383 ≤ inject v r ∧ inject v r ≤ 65662 := by
  obtain ⟨hlo, hhi⟩ := h
  have hv := v.isLt
  rw [inject_eq]
  omega

/-- Settles O21: the sum is formed on integers, so its range is that of its two terms added. -/
theorem injectionRange : Obligations.InjectionRange := fun v r =>
  ⟨inject_eq v r, (inject_bounds v r).1, (inject_bounds v r).2, inject_bounds_of_inBand⟩

/-! ### The output byte -/

/-- Clamping and then dividing is dividing and then clamping. -/
theorem quantize_toNat_eq_max_min (x : Int) : ((quantize x).toNat : Int) = max 0 (min 255 ((x + 128) / 256)) := by
  rw [quantize_toNat]
  unfold clamp
  split_ifs <;> omega

theorem quantize_toNat_eq_zero_iff (x : Int) : (quantize x).toNat = 0 ↔ x < 128 := by
  have h := quantize_toNat_eq_max_min x
  omega

theorem quantize_toNat_eq_max_iff (x : Int) : (quantize x).toNat = 255 ↔ 65152 ≤ x := by
  have h := quantize_toNat_eq_max_min x
  omega

/-- Between the two thresholds nothing is cut off. -/
theorem quantize_toNat_of_between {x : Int} (h1 : 128 ≤ x) (h2 : x < 65152) :
    ((quantize x).toNat : Int) = (x + 128) / 256 := by
  have h := quantize_toNat_eq_max_min x
  omega

/-- Settles O22: the byte is the clamped value over 256, and the thresholds are read off its closed form. -/
theorem quantizerRoundsAndSaturates : Obligations.QuantizerRoundsAndSaturates := by
  refine ⟨fun x => ⟨quantize_toNat x, quantize_toNat_eq_max_min x, quantize_toNat_eq_zero_iff x,
    quantize_toNat_eq_max_iff x⟩, fun v r => ?biasedRange⟩
  case biasedRange =>
    have h := inject_bounds v r
    omega

theorem quantLane_out_of_low {v r : Word} (h : inject v r < 128) : (quantLane v r).out = 0 :=
  BitVec.eq_of_toNat_eq ((quantize_toNat_eq_zero_iff _).2 h)

theorem quantLane_out_of_high {v r : Word} (h : 65152 ≤ inject v r) : (quantLane v r).out = 255 :=
  BitVec.eq_of_toNat_eq ((quantize_toNat_eq_max_iff _).2 h)

/-! ### The new residual -/

/-- R104: the residual stored is the exact new residual. -/
theorem newResidual_eq_quantLane_res (v r : Word) :
    newResidual (inject v r) (quantize (inject v r)) = (quantLane v r).res.toInt :=
  (newResidual_eq ..).trans (quantLane_res_toInt v r).symm

section
variable {v r : Word}

theorem quantLane_res_of_low (h : inject v r < 128) : (quantLane v r).res.toInt = inject v r := by
  rw [quantLane_res_toInt, quantLane_out_of_low h]
  exact sub_zero _

theorem quantLane_res_of_high (h : 65152 ≤ inject v r) : (quantLane v r).res.toInt = inject v r - 65535 := by
  rw [quantLane_res_toInt, quantLane_out_of_high h]
  rfl

/-- R106: between the thresholds the residual is the remainder of the rounding less the byte, since the shift divides
by 256 and the feedback multiplies by 257. -/
theorem quantLane_res_of_between (h1 : 128 ≤ inject v r) (h2 : inject v r < 65152) :
    (quantLane v r).res.toInt = (inject v r + 128) % 256 - 128 - (inject v r + 128) / 256 := by
  rw [quantLane_res_toInt, quantLane_out, quantize_toNat_of_between h1 h2]
  omega

/-- R107 (a), the unclamped band. -/
theorem inBand_quantLane_res_of_unclamped (h1 : -128 ≤ inject v r) (h2 : inject v r ≤ 65407) :
    inBand (quantLane v r).res := by
  unfold inBand
  rcases lt_or_ge (inject v r) 128 with hlow | hlow
  · rw [quantLane_res_of_low hlow]
    omega
  · rcases lt_or_ge (inject v r) 65152 with hhigh | hhigh
    · rw [quantLane_res_of_between hlow hhigh]
      omega
    · rw [quantLane_res_of_high hhigh]
      omega

/-- R107 (c), low: the residual grows by the intensity, and not past the bias. -/
theorem quantLane_res_of_clamped_low (h : inject v r < -128) :
    (quantLane v r).res.toInt = r.toInt + v.toNat ∧ r.toInt ≤ (quantLane v r).res.toInt ∧
      (quantLane v r).res.toInt < -128 := by
  have hres := quantLane_res_of_low (v := v) (r := r) (by omega)
  have hinj := inject_eq v r
  omega

/-- R107 (c), high: the residual falls by what the intensity lacks of full scale. -/
theorem quantLane_res_of_clamped_high (h : 65408 ≤ inject v r) :
    (quantLane v r).res.toInt = r.toInt - (65535 - v.toNat) ∧ (quantLane v r).res.toInt ≤ r.toInt ∧
      -127 ≤ (quantLane v r).res.toInt := by
  have hres := quantLane_res_of_high (v := v) (r := r) (by omega)
  have hinj := inject_eq v r
  have hv := v.isLt
  omega

/-- R107 (b): a clamped residual moves towards the band without leaving it on the far side. -/
theorem inBand_quantLane_res (h : inBand r) : inBand (quantLane v r).res := by
  rcases lt_or_ge (inject v r) (-128) with hlow | hlow
  · obtain ⟨-, hgrows, hbelow⟩ := quantLane_res_of_clamped_low hlow
    exact ⟨h.1.trans hgrows, by omega⟩
  · rcases le_or_gt (inject v r) 65407 with hhigh | hhigh
    · exact inBand_quantLane_res_of_unclamped hlow hhigh
    · obtain ⟨-, hfalls, habove⟩ := quantLane_res_of_clamped_high hhigh
      exact ⟨by omega, hfalls.trans h.2⟩

end

/-- Settles O25: the three regimes of the clamp, and a 16-bit word that holds the new residual exactly. -/
theorem residualRange : Obligations.ResidualRange := by
  refine ⟨fun v r => ?_, by decide, by decide⟩
  rw [newResidual_eq_quantLane_res]
  obtain ⟨hmin, hmax⟩ := word_toInt_bounds (quantLane v r).res
  exact ⟨hmin, hmax, rfl, inBand_quantLane_res, quantLane_res_of_clamped_low, inBand_quantLane_res_of_unclamped,
    quantLane_res_of_clamped_high⟩

/-- Settles O26: a value the clamp cuts off lies beyond the threshold of the extreme byte. -/
theorem quantizerSaturates : Obligations.QuantizerSaturates :=
  ⟨fun _ _ => ⟨fun h => quantLane_out_of_low (by omega), fun h => quantLane_out_of_high (by omega)⟩,
    by decide, by decide, by decide, by decide⟩

/-! ### Exactness of an UPDATE -/

/-- R105 for one channel. -/
theorem quantLane_exact (v r : Word) :
    ((quantLane v r).out.toNat : Int) * 257 + (quantLane v r).res.toInt = v.toNat + r.toInt := by
  rw [quantLane_res_toInt, inject_eq]
  omega

/-- R65: each channel's field of the packed word is that channel's byte. -/
theorem outByte_pack (c : Channel) (o : PerChannel Byte) : outByte c (pack o) = (o.get c).toNat := by
  have hr := o.red.isLt
  have hg := o.green.isLt
  have hb := o.blue.isLt
  cases c <;> simp only [outByte, bits, pack_toNat, PerChannel.get] <;> omega

/-- The response an UPDATE commits holds the output byte of every lane. -/
theorem outByte_pack_lanes (c : Channel) (l : PerChannel Lane) :
    outByte c (pack ⟨l.red.out, l.green.out, l.blue.out⟩) = (l.get c).out.toNat := by
  rw [outByte_pack]
  cases c <;> rfl

/-- Settles O28: an UPDATE that answers commits three lanes, and each lane is exact. -/
theorem exactnessAfterUpdate : Obligations.ExactnessAfterUpdate := by
  intro slot a b p n s t h
  obtain ⟨-, -, l, hlane, rfl⟩ := (updateWith_next_iff ..).1 h
  refine ⟨_, State.commit_responses s slot l, fun c => ?_⟩
  obtain ⟨v, hv, hl⟩ := (State.updateLane_eq_some_iff ..).1 (hlane c)
  refine ⟨v, hv, ?_⟩
  rw [outByte_pack_lanes, State.readRes_commit, if_pos rfl, hl]
  exact quantLane_exact v _

end Sys2Proof.Machine
end

section
/-! SUPPORT. The pixel-update family: what one channel of an UPDATE does in terms of the entries its exact blend
selects, and what the commit of the three channels leaves as it was (spec/43_pixel_update.md R120 to R126). -/

namespace Sys2Proof.Machine

/-- A value chosen for every channel is a value per channel. -/
theorem PerChannel.exists_get {α : Type} {P : Channel → α → Prop} (h : ∀ c, ∃ x, P c x) :
    ∃ t : PerChannel α, ∀ c, P c (t.get c) := by
  obtain ⟨r, hr⟩ := h .red
  obtain ⟨g, hg⟩ := h .green
  obtain ⟨b, hb⟩ := h .blue
  refine ⟨⟨r, g, b⟩, fun c => ?_⟩
  cases c
  case red => exact hr
  case green => exact hg
  case blue => exact hb

/-! ### One channel -/

section
variable {a b : Weight} {p n : Byte} (h : a.toNat + b.toNat = 16842752)
include h

/-- R92: under the weight contract the 16-bit blend selects the entries the exact blend does. -/
theorem tableIndex_blendWord : tableIndex (blendWord p n a b) = blend p n a b / 256 := by
  rw [tableIndex_eq, blendWord_toNat h, blend_eq]

theorem tableAlpha_blendWord : tableAlpha (blendWord p n a b) = blend p n a b % 256 := by
  rw [tableAlpha_eq, blendWord_toNat h, blend_eq]

end

section
variable {s : State} {slot : Word} {a b : Weight} {p n : Pixel} {c : Channel} (h : a.toNat + b.toNat = 16842752)
include h

theorem State.updateLane_of_entries {lo hi : Word}
    (hlo : s.readLut c (blend (p.get c) (n.get c) a b / 256) = some lo)
    (hhi : s.readLut c (blend (p.get c) (n.get c) a b / 256 + 1) = some hi) :
    s.updateLane slot a b p n c = some (quantLane (interpResult lo hi (blend (p.get c) (n.get c) a b % 256))
      (s.readRes slot.toNat c)) := by
  rw [← tableIndex_blendWord h] at hlo hhi
  rw [State.updateLane_eq_some_iff, ← tableAlpha_blendWord h]
  exact ⟨_, State.interpAt_of_entries hlo hhi, rfl⟩

theorem State.updateLane_of_undefined
    (hundef : s.readLut c (blend (p.get c) (n.get c) a b / 256) = none ∨
      s.readLut c (blend (p.get c) (n.get c) a b / 256 + 1) = none) : s.updateLane slot a b p n c = none := by
  rw [← tableIndex_blendWord h] at hundef
  rw [State.updateLane, State.interpAt_of_undefined hundef]

end

/-- R121, R123: a channel's lane is read off its two selected entries and its residual. -/
theorem State.updateLane_congr {s s' : State} {slot : Word} {a b : Weight} {p n : Pixel} {c : Channel}
    (h : a.toNat + b.toNat = 16842752)
    (hlo : s.readLut c (blend (p.get c) (n.get c) a b / 256) = s'.readLut c (blend (p.get c) (n.get c) a b / 256))
    (hhi : s.readLut c (blend (p.get c) (n.get c) a b / 256 + 1) =
      s'.readLut c (blend (p.get c) (n.get c) a b / 256 + 1))
    (hres : s.readRes slot.toNat c = s'.readRes slot.toNat c) :
    s.updateLane slot a b p n c = s'.updateLane slot a b p n c := by
  rw [← tableIndex_blendWord h] at hlo hhi
  unfold State.updateLane State.interpAt
  rw [hlo, hhi, hres]

/-! ### The reference function -/

theorem clamp_eq_min_max {v lo hi : Int} (h : lo ≤ hi) : clamp v lo hi = min (max v lo) hi := by
  unfold clamp
  split_ifs <;> omega

/-- R101, R103 as the reference function writes them. -/
theorem quantLane_eq_reference {v r : Word} {x : Int} {o : Nat} (hx : inject v r = x)
    (ho : (o : Int) = min (max (x + 0x80) 0) 0xFFFF / 256) :
    (quantLane v r).out.toNat = o ∧ (quantLane v r).res.toInt = x - o * 257 := by
  have hout : ((quantLane v r).out.toNat : Int) = o := by
    rw [quantLane_out, quantize_toNat, clamp_eq_min_max (by decide), hx, ho]
  refine ⟨Int.ofNat_inj.1 hout, ?_⟩
  rw [quantLane_res_toInt, hx, hout, mul_comm]

/-- R110 on natural numbers. -/
theorem pack_eq_ofNat (o : PerChannel Byte) :
    pack o = BitVec.ofNat 24 (o.green.toNat <<< 16 ||| o.red.toNat <<< 8 ||| o.blue.toNat) := by
  have widened (x : Byte) : x.toNat % 16777216 = x.toNat := by
    have hx := x.isLt
    omega
  apply BitVec.eq_of_toNat_eq
  simp [pack, widened]

/-! ### The operation UPDATE -/

theorem updateWith_of_lanes {k : Nat} {slot : Word} {a b : Weight} {p n : Pixel} {s : State} {l : PerChannel Lane}
    (hslot : slot.toNat < k) (hw : a.toNat + b.toNat = 16842752)
    (hl : ∀ c, s.updateLane slot a b p n c = some (l.get c)) :
    updateWith k slot a b p n s = .next (s.commit slot l) :=
  (updateWith_next_iff ..).2 ⟨hslot, hw, l, hl, rfl⟩

/-- R124: what a commit leaves as it was in the two memories. -/
theorem State.commit_frame (s : State) (slot : Word) (l : PerChannel Lane) :
    (∀ n c, n ≠ slot.toNat → (s.commit slot l).readRes n c = s.readRes n c) ∧
      (∀ a, (∀ c, a ≠ resAddr slot.toNat c) → (s.commit slot l).resAt a = s.resAt a) ∧
      ∀ a, (s.commit slot l).lutAt a = s.lutAt a := by
  refine ⟨fun n c hn => ?otherSlot, fun a ha => ?otherAddress, State.lutAt_congr (State.commit_lut s slot l)⟩
  case otherSlot => rw [State.readRes_commit, if_neg hn]
  case otherAddress =>
    rcases State.resAt_commit s slot l a with ⟨c, hc, -⟩ | ⟨-, hold⟩
    · exact absurd hc (ha c)
    · exact hold

/-- Settles O33: an UPDATE that answers is a commit of its slot. -/
theorem updateFrame : Obligations.UpdateFrame := by
  intro slot a b p n s t h
  obtain ⟨-, -, l, -, rfl⟩ := (updateWith_next_iff ..).1 h
  obtain ⟨hslot, haddr, hlut⟩ := State.commit_frame s slot l
  exact ⟨hslot, haddr, hlut, State.commit_lut .., State.commit_stream .., State.commit_observed .., _,
    State.commit_responses ..⟩

/-- Settles O34: lanes that agree on every channel are committed to the same word and the same residuals. -/
theorem updateIsDetermined : Obligations.UpdateIsDetermined := by
  intro slot a b p n s s' t hagree h
  obtain ⟨hslot, hw, l, hl, rfl⟩ := (updateWith_next_iff ..).1 h
  have hl' (c : Channel) : s'.updateLane slot a b p n c = some (l.get c) := by
    obtain ⟨hlo, hhi, hres⟩ := hagree c
    rw [← State.updateLane_congr hw hlo hhi hres, hl c]
  refine ⟨_, _, updateWith_of_lanes hslot hw hl', State.commit_responses .., State.commit_responses .., fun c => ?_⟩
  rw [State.readRes_commit, State.readRes_commit, if_pos rfl, if_pos rfl]

/-- Settles O32: each check by its own lemma; past all of them every channel has its lane. -/
theorem updateContractChecks : Obligations.UpdateContractChecks := by
  refine ⟨fun s q es hs hq => ?reserved, fun _ _ _ _ _ _ => rfl, fun k slot a b p n s =>
    ⟨fun hslot => updateWith_slotOutOfRange hslot a b p n s, fun hslot hw => updateWith_weightSum hslot hw p n s,
      fun hslot hw hundef => ?undefined, fun hslot hw hdef => ?answers⟩⟩
  case reserved =>
    obtain ⟨why, hwhy⟩ := hq
    exact ⟨why, step_request_invalid hs hwhy⟩
  case undefined =>
    obtain ⟨c, hc⟩ := hundef
    exact updateWith_lutUndefined hslot hw (State.updateLane_of_undefined hw hc)
  case answers =>
    have hlane (c : Channel) : ∃ l, s.updateLane slot a b p n c = some l := by
      obtain ⟨hloDef, hhiDef⟩ := hdef c
      obtain ⟨lo, hlo⟩ := Option.ne_none_iff_exists'.1 hloDef
      obtain ⟨hi, hhi⟩ := Option.ne_none_iff_exists'.1 hhiDef
      exact ⟨_, State.updateLane_of_entries hw hlo hhi⟩
    obtain ⟨l, hl⟩ := PerChannel.exists_get hlane
    exact ⟨_, updateWith_of_lanes hslot hw hl⟩

/-- R126 for one channel. -/
theorem State.exists_updateLane_reference {s : State} {slot : Word} {a b : Weight} {p n : Pixel} {c : Channel}
    (hw : a.toNat + b.toNat = 16842752) {lo hi : Word} {i v o : Nat} {x : Int}
    (hblend : i = ((p.get c).toNat * a.toNat + (n.get c).toNat * b.toNat) / 2 ^ 16)
    (hentries : s.readLut c (i / 256) = some lo ∧ s.readLut c (i / 256 + 1) = some hi)
    (hv : v = (lo.toNat * (256 - i % 256) + hi.toNat * (i % 256)) / 256)
    (hx : x = v + (s.readRes slot.toNat c).toInt)
    (ho : (o : Int) = min (max (x + 0x80) 0) 0xFFFF / 256) :
    ∃ l, s.updateLane slot a b p n c = some l ∧ l.out.toNat = o ∧ l.res.toInt = x - o * 257 := by
  obtain rfl : i = blend (p.get c) (n.get c) a b := hblend.trans (blend_eq ..).symm
  obtain ⟨hlo, hhi⟩ := hentries
  refine ⟨_, State.updateLane_of_entries hw hlo hhi, quantLane_eq_reference ?_ ho⟩
  rw [inject_eq, interpResult_toNat (Nat.mod_lt _ (by decide)).le, ← hv, hx]

/-- Settles O31: the commit of the three channels, each computed as the reference function does. -/
theorem updateFollowsReferenceFunction : Obligations.UpdateFollowsReferenceFunction := by
  intro slot a b p n s lo hi i v o x hslot hw hblend hentries hv hx ho
  obtain ⟨l, hl⟩ := PerChannel.exists_get fun c =>
    State.exists_updateLane_reference hw (hblend c) (hentries c) (hv c) (hx c) (ho c)
  refine ⟨_, updateWith_of_lanes hslot hw fun c => (hl c).1, fun c => ?residual, ?response⟩
  case residual =>
    obtain ⟨-, -, hres⟩ := hl c
    rw [State.readRes_commit, if_pos rfl, hres]
  case response =>
    have hout (c : Channel) : (l.get c).out.toNat = o c := by
      obtain ⟨-, hout, -⟩ := hl c
      exact hout
    rw [State.commit_responses, pack_eq_ofNat, ← hout .green, ← hout .red, ← hout .blue]
    rfl

end Sys2Proof.Machine
end

section
/-! SUPPORT. Encoding: when a request word decodes to given operands, field by field, and that decoding and encoding
are inverse to each other (spec/30_encoding.md R61, R62, R68). -/

namespace Sys2Proof

/-! ### The two formats, field by field -/

theorem decodeU_eq_op_iff (q : Request) (i : Instr) :
    decodeU q = .op i ↔ paddingUZero q = true ∧
      i = .update (q.extractLsb' 128 16) (q.extractLsb' 96 25) (q.extractLsb' 64 25) (pixelAt q 32) (pixelAt q 0) := by
  unfold decodeU
  split_ifs with hpad <;> simp [hpad, eq_comm]

theorem decodeI_eq_op_iff (q : Request) (i : Instr) :
    decodeI q = .op i ↔ paddingIZero q = true ∧
      ∃ ch, q.extractLsb' 144 2 = codeOfChannel ch ∧ i = .interp ch (q.extractLsb' 128 16) := by
  unfold decodeI
  simp only [← channelOfCode_eq_some_iff]
  split_ifs with hpad
  · rcases channelOfCode (q.extractLsb' 144 2) with _ | ch <;> simp [hpad, eq_comm]
  · simp [hpad]

/-- A word decodes to an operation in one of the two formats only. -/
theorem decode_eq_op_iff (q : Request) (i : Instr) :
    decode q = .op i ↔
      (bits q.toNat 159 156 = 1 ∧ decodeU q = .op i) ∨ (bits q.toNat 159 156 = 2 ∧ decodeI q = .op i) := by
  by_cases h1 : bits q.toNat 159 156 = 1
  · simp [decode_of_op_one h1, h1]
  · by_cases h2 : bits q.toNat 159 156 = 2
    · simp [decode_of_op_two h2, h2]
    · simp [decode_of_op_other h1 h2, h1, h2]

theorem decode_eq_update_iff (q : Request) (slot : Word) (a b : Weight) (p n : Pixel) :
    decode q = .op (.update slot a b p n) ↔ bits q.toNat 159 156 = 1 ∧ paddingUZero q = true ∧
      slot = q.extractLsb' 128 16 ∧ a = q.extractLsb' 96 25 ∧ b = q.extractLsb' 64 25 ∧
        p = pixelAt q 32 ∧ n = pixelAt q 0 := by
  simp [decode_eq_op_iff, decodeU_eq_op_iff, decodeI_eq_op_iff]

theorem decode_eq_interp_iff (q : Request) (c : Channel) (a : Word) :
    decode q = .op (.interp c a) ↔ bits q.toNat 159 156 = 2 ∧ paddingIZero q = true ∧
      q.extractLsb' 144 2 = codeOfChannel c ∧ a = q.extractLsb' 128 16 := by
  simp [decode_eq_op_iff, decodeU_eq_op_iff, decodeI_eq_op_iff]

/-- An operand is its field exactly when its number is the bits of R8 there. -/
theorem eq_field_iff_bits {hi lo n : Nat} (q : Request) (k : BitVec n) (h : hi - lo + 1 = n) :
    k = q.extractLsb' lo n ↔ k.toNat = bits q.toNat hi lo := by
  rw [eq_comm, field_eq_iff_bits q k h, eq_comm]

theorem eq_pixelAt_iff_bits (q : Request) (p : Pixel) (lo : Nat) :
    p = pixelAt q lo ↔ p.red.toNat = bits q.toNat (lo + 23) (lo + 16) ∧
      p.green.toNat = bits q.toNat (lo + 15) (lo + 8) ∧ p.blue.toNat = bits q.toNat (lo + 7) lo := by
  obtain ⟨r, g, b⟩ := p
  rw [pixelAt, PerChannel.mk.injEq, eq_field_iff_bits (hi := lo + 23) q r (by omega),
    eq_field_iff_bits (hi := lo + 15) q g (by omega), eq_field_iff_bits (hi := lo + 7) q b (by omega)]

/-- Settles O3: the decoder's branch for format `U`, each comparison read as one of numbers. -/
theorem updateDecodesByFormatU : Obligations.UpdateDecodesByFormatU := by
  intro q slot a b p n
  rw [decode_eq_update_iff, paddingUZero_iff, eq_field_iff_bits (hi := 143) q slot rfl,
    eq_field_iff_bits (hi := 120) q a rfl, eq_field_iff_bits (hi := 88) q b rfl, eq_pixelAt_iff_bits,
    eq_pixelAt_iff_bits]
  simp only [and_assoc, Nat.zero_add, Nat.reduceAdd]

/-- Settles O4: the decoder's branch for format `I`, where a channel's code is the number of its field. -/
theorem interpDecodesByFormatI : Obligations.InterpDecodesByFormatI := by
  intro q c a
  rw [decode_eq_interp_iff, paddingIZero_iff, eq_field_iff_bits (hi := 143) q a rfl, eq_comm (b := codeOfChannel c),
    eq_field_iff_bits (hi := 145) q (codeOfChannel c) rfl, and_assoc]
  rfl

/-! ### Decoding and encoding are inverse -/

theorem decode_encode_interp (c : Channel) (a : Word) : decode (encode (.interp c a)) = .op (.interp c a) := by
  have hcode := (codeOfChannel c).isLt
  have ha := a.isLt
  rw [interpDecodesByFormatI, encode_interp_toNat, Machine.code]
  unfold bits
  omega

theorem decode_encode (i : Instr) : decode (encode i) = .op i := by
  cases i with
  | update slot a b p n => exact decode_encode_update slot a b p n
  | interp c a => exact decode_encode_interp c a

/-- Settles O1, one lemma per format. -/
theorem decodeOfEncode : Obligations.DecodeOfEncode := decode_encode

/-- The fields of format `U` cover the word, so the encoding of what they hold has every bit of it. -/
theorem encode_of_decode_update {q : Request} {slot : Word} {a b : Weight} {p n : Pixel}
    (h : decode q = .op (.update slot a b p n)) : encode (.update slot a b p n) = q := by
  rw [updateDecodesByFormatU] at h
  have hq := q.isLt
  apply BitVec.eq_of_toNat_eq
  rw [encode_update_toNat]
  unfold bits at h
  omega

theorem encode_of_decode_interp {q : Request} {c : Channel} {a : Word}
    (h : decode q = .op (.interp c a)) : encode (.interp c a) = q := by
  rw [interpDecodesByFormatI, Machine.code] at h
  have hq := q.isLt
  apply BitVec.eq_of_toNat_eq
  rw [encode_interp_toNat]
  unfold bits at h
  omega

/-- Settles O2, one lemma per format. -/
theorem encodeOfDecode : Obligations.EncodeOfDecode := by
  intro q i h
  cases i with
  | update slot a b p n => exact encode_of_decode_update h
  | interp c a => exact encode_of_decode_interp h

/-! ### Masks and match values -/

/-- A decoded word agrees with its row: it is the encoding of its operation. -/
theorem and_mask_of_decode {q : Request} {i : Instr} (h : decode q = .op i) : q &&& i.mask = i.matchValue := by
  rw [← encodeOfDecode q i h]
  cases i with
  | update slot a b p n => exact Laws.RowMatch.update slot a b p n
  | interp c a => exact Laws.RowMatch.interp c a

/-- A field the mask covers with ones is determined by the match value. -/
theorem field_of_and_mask {q m v : Request} (h : q &&& m = v) {lo n : Nat}
    (hm : m.extractLsb' lo n = BitVec.allOnes n) : q.extractLsb' lo n = v.extractLsb' lo n := by
  rw [← h, BitVec.extractLsb'_and, hm, BitVec.and_allOnes]

theorem decodes_update_of_and_mask {q : Request}
    (h : q &&& 0xFFFF0000FE000000FE000000FF000000FF000000#160 = 0x1000000000000000000000000000000000000000#160) :
    ∃ slot a b p n, decode q = .op (.update slot a b p n) := by
  have hpad : paddingUZero q = true := by
    simp only [paddingUZero, Bool.and_eq_true, decide_eq_true_eq]
    exact ⟨⟨⟨⟨field_of_and_mask h rfl, field_of_and_mask h rfl⟩, field_of_and_mask h rfl⟩,
      field_of_and_mask h rfl⟩, field_of_and_mask h rfl⟩
  have hop : bits q.toNat 159 156 = 1 := (field_eq_iff_bits q 1#4 rfl).1 (field_of_and_mask h rfl)
  exact ⟨_, _, _, _, _, (decode_eq_update_iff ..).2 ⟨hop, hpad, rfl, rfl, rfl, rfl, rfl⟩⟩

theorem exists_channel_iff (q : Request) :
    (∃ c, q.extractLsb' 144 2 = codeOfChannel c) ↔ bits q.toNat 145 144 ≠ 3 := by
  have hnone := (channelOfCode_eq_none_iff _).trans (field_eq_iff_bits (hi := 145) (lo := 144) q 3#2 rfl)
  simp only [← channelOfCode_eq_some_iff, ← Option.ne_none_iff_exists', ne_eq]
  exact not_congr hnone

theorem decodes_interp_of_and_mask {q : Request}
    (h : q &&& 0xFFFC0000FFFFFFFFFFFFFFFFFFFFFFFFFFFFFFFF#160 = 0x2000000000000000000000000000000000000000#160)
    (hch : bits q.toNat 145 144 ≠ 3) : ∃ c a, decode q = .op (.interp c a) := by
  have hpad : paddingIZero q = true := by
    simp only [paddingIZero, Bool.and_eq_true, decide_eq_true_eq]
    exact ⟨field_of_and_mask h rfl, field_of_and_mask h rfl⟩
  have hop : bits q.toNat 159 156 = 2 := (field_eq_iff_bits q 2#4 rfl).1 (field_of_and_mask h rfl)
  obtain ⟨c, hc⟩ := (exists_channel_iff q).2 hch
  exact ⟨c, _, (decode_eq_interp_iff ..).2 ⟨hop, hpad, hc, rfl⟩⟩

/-- Settles O6: a decoded word is an encoding and so meets its row; and the ones of each mask cover exactly the
operation code and the must-be-zero fields. -/
theorem rowsDecodeByMaskAndMatch : Obligations.RowsDecodeByMaskAndMatch := by
  intro q
  refine ⟨⟨fun ⟨slot, a, b, p, n, h⟩ => and_mask_of_decode h, decodes_update_of_and_mask⟩,
    ⟨fun ⟨c, a, h⟩ => ⟨and_mask_of_decode h, ?channel⟩, fun ⟨h, hch⟩ => decodes_interp_of_and_mask h hch⟩⟩
  case channel =>
    obtain ⟨-, -, hc, -⟩ := (decode_eq_interp_iff ..).1 h
    exact (exists_channel_iff q).1 ⟨c, hc⟩

/-! ### Samples -/

/-- Settles O7, by evaluating the decoder on the four words. -/
theorem sampleWordsDecode : Obligations.SampleWordsDecode := by
  unfold Obligations.SampleWordsDecode
  decide

/-- Settles O8, by evaluating the reader and the encoder on the lines of R70 and R71. -/
theorem assemblerExamples : Obligations.AssemblerExamples := by
  unfold Obligations.AssemblerExamples
  decide

end Sys2Proof
end

section
/-! SUPPORT. Steps of the machine: what one event that answers did, and from it what a step does to the responses, to
each table entry, to each residual and to the form of the memories (spec/10_state.md R20 to R23, R31;
spec/20_memory.md R40 to R44; spec/30_encoding.md R60). -/

namespace Sys2Proof.Machine

/-! ### What an event did -/

/-- `Effect s e t`: the event `e` at `s` answers `t`, with what made it answer (`effect_of_runEvent`,
`runEvent_of_effect`). -/
inductive Effect (s : State) : Event → State → Prop where
  | interp {q : Request} {c : Channel} {a v : Word} (hq : decode q = .op (.interp c a))
      (hv : s.interpAt c a = some v) : Effect s (.request q) (s.respond (zext24 v))
  | update {q : Request} {slot : Word} {a b : Weight} {p n : Pixel} {l : PerChannel Lane}
      (hq : decode q = .op (.update slot a b p n)) (hslot : slot.toNat < Config.nSlots)
      (hw : a.toNat + b.toNat = 16842752) (hl : ∀ c, s.updateLane slot a b p n c = some (l.get c)) :
      Effect s (.request q) (s.commit slot l)
  | lutWrite {a : Nat} {v : Word} (ha : a < 771) : Effect s (.lutWrite a v) (s.writeLutAt a v)
  | lutRead {a : Nat} {v : Word} (ha : a < 771) (hv : s.lutAt a = some v) :
      Effect s (.lutRead a) (s.observe (.lutEntry v))
  | resWrite {a : Nat} {v : Word} (ha : a < 3 * Config.nSlots) : Effect s (.resWrite a v) (s.writeResAt a v)
  | resRead {a : Nat} (ha : a < 3 * Config.nSlots) : Effect s (.resRead a) (s.observe (.residual (s.resAt a)))
  | readResponse {w : Response} {ws : List Response} (hr : s.responses = w :: ws) :
      Effect s .readResponse ((s.setResponses ws).observe (.response w))
  | readNothing (hr : s.responses = []) : Effect s .readResponse s
  | reset : Effect s .reset (resetBlock s)

theorem effect_of_runEvent {s t : State} {e : Event} (h : runEvent Config.nSlots e s = .next t) : Effect s e t := by
  cases e with
  | request q =>
    obtain ⟨i, hq, hi⟩ := (onRequest_next_iff ..).1 h
    rcases exec_next_cases hi with ⟨c, a, v, rfl, hv, rfl⟩ | ⟨slot, a, b, p, n, l, rfl, hslot, hw, hl, rfl⟩
    · exact .interp hq hv
    · exact .update hq hslot hw hl
  | lutWrite a v => obtain ⟨ha, rfl⟩ := (hostLutWrite_next_iff ..).1 h; exact .lutWrite ha
  | lutRead a => obtain ⟨ha, v, hv, rfl⟩ := (hostLutRead_next_iff ..).1 h; exact .lutRead ha hv
  | resWrite a v => obtain ⟨ha, rfl⟩ := (hostResWrite_next_iff ..).1 h; exact .resWrite ha
  | resRead a => obtain ⟨ha, rfl⟩ := (hostResRead_next_iff ..).1 h; exact .resRead ha
  | readResponse =>
    rcases (hostReadResponse_next_iff ..).1 h with ⟨hr, rfl⟩ | ⟨w, ws, hr, rfl⟩
    · exact .readNothing hr
    · exact .readResponse hr
  | reset => cases h; exact .reset

theorem runEvent_of_effect {s t : State} {e : Event} (h : Effect s e t) : runEvent Config.nSlots e s = .next t := by
  cases h with
  | interp hq hv => exact (onRequest_next_iff ..).2 ⟨_, hq, execInterp_of_some hv⟩
  | update hq hslot hw hl => exact (onRequest_next_iff ..).2 ⟨_, hq, updateWith_of_lanes hslot hw hl⟩
  | lutWrite ha => exact (hostLutWrite_next_iff ..).2 ⟨ha, rfl⟩
  | lutRead ha hv => exact (hostLutRead_next_iff ..).2 ⟨ha, _, hv, rfl⟩
  | resWrite ha => exact (hostResWrite_next_iff ..).2 ⟨ha, rfl⟩
  | resRead ha => exact (hostResRead_next_iff ..).2 ⟨ha, rfl⟩
  | readResponse hr => exact (hostReadResponse_next_iff ..).2 (.inr ⟨_, _, hr, rfl⟩)
  | readNothing hr => exact (hostReadResponse_next_iff ..).2 (.inl ⟨hr, rfl⟩)
  | reset => rfl

/-- A step that answers is idle or has the effect of the next event. -/
theorem step_next_effect {s t : State} (h : step s = .next t) :
    (s.stream = [] ∧ t = s) ∨ ∃ e es, s.stream = e :: es ∧ Effect (s.setStream es) e t := by
  rcases step_next_cases h with hidle | ⟨e, es, hs, hr⟩
  · exact .inl hidle
  · exact .inr ⟨e, es, hs, effect_of_runEvent hr⟩

theorem step_of_effect {s t : State} {e : Event} {es : List Event} (hs : s.stream = e :: es)
    (h : Effect (s.setStream es) e t) : step s = .next t := (step_of_cons hs).trans (runEvent_of_effect h)

/-! ### The responses delivered -/

theorem State.delivered_respond (s : State) (w : Response) : (s.respond w).delivered = s.delivered ++ [w] :=
  (List.append_assoc ..).symm

theorem State.delivered_observe_lutEntry (s : State) (v : Word) :
    (s.observe (.lutEntry v)).delivered = s.delivered := by
  simp [State.delivered, HostValue.response?]

theorem State.delivered_observe_residual (s : State) (v : Word) :
    (s.observe (.residual v)).delivered = s.delivered := by
  simp [State.delivered, HostValue.response?]

/-- A response read moves from the front of those waiting to the end of those read. -/
theorem State.delivered_read {s : State} {w : Response} {ws : List Response} (h : s.responses = w :: ws) :
    ((s.setResponses ws).observe (.response w)).delivered = s.delivered := by
  simp [State.delivered, HostValue.response?, h]

theorem Effect.delivered_of_request {s t : State} {q : Request} (h : Effect s (.request q) t) :
    ∃ w, t.delivered = s.delivered ++ [w] := by
  cases h with
  | interp => exact ⟨_, State.delivered_respond ..⟩
  | update => exact ⟨_, State.delivered_respond ..⟩

theorem Effect.delivered_of_not_request {s t : State} {e : Event} (h : Effect s e t) (he : ∀ q, e ≠ .request q) :
    t.delivered = s.delivered := by
  cases h with
  | interp => exact absurd rfl (he _)
  | update => exact absurd rfl (he _)
  | lutWrite => rfl
  | lutRead => exact State.delivered_observe_lutEntry ..
  | resWrite => rfl
  | resRead => exact State.delivered_observe_residual ..
  | readResponse hr => exact State.delivered_read hr
  | readNothing => rfl
  | reset => rfl

/-- Settles O46: only the two operations respond, and a read moves a response within the sequence. -/
theorem oneResponsePerRequest : Obligations.OneResponsePerRequest := by
  intro s t h
  rcases step_next_effect h with ⟨hs, rfl⟩ | ⟨e, es, hs, he⟩
  · exact ⟨fun q es hq => absurd (hs.symm.trans hq) (by simp), fun _ => rfl⟩
  · refine ⟨fun q es' hq => ?request, fun hno => ?other⟩
    case request =>
      obtain ⟨rfl, rfl⟩ := List.cons_eq_cons.1 (hs.symm.trans hq)
      exact he.delivered_of_request
    case other => exact he.delivered_of_not_request fun q hq => hno q es (hq ▸ hs)

/-! ### The table -/

theorem Effect.lutAt_cases {s t : State} {e : Event} (h : Effect s e t) (a : Nat) :
    t.lutAt a = s.lutAt a ∨ (∃ v, e = .lutWrite a v ∧ t.lutAt a = some v) ∨ (e = .reset ∧ t.lutAt a = none) := by
  cases h with
  | @lutWrite b v hb =>
    by_cases hab : a = b
    · subst hab; exact .inr (.inl ⟨v, rfl, State.lutAt_writeLutAt_same ..⟩)
    · exact .inl (State.lutAt_writeLutAt_ne s v hab)
  | reset => exact .inr (.inr ⟨rfl, rfl⟩)
  | interp | update | lutRead | resWrite | resRead | readResponse | readNothing => exact .inl rfl

/-- Everything a step that answers can have done to a table entry. -/
theorem step_lutAt_cases {s t : State} (h : step s = .next t) (a : Nat) :
    t.lutAt a = s.lutAt a ∨ (∃ v es, s.stream = .lutWrite a v :: es ∧ t.lutAt a = some v) ∨
      ∃ es, s.stream = .reset :: es ∧ t.lutAt a = none := by
  rcases step_next_effect h with ⟨-, rfl⟩ | ⟨e, es, hs, he⟩
  · exact .inl rfl
  · rcases he.lutAt_cases a with hsame | ⟨v, rfl, hv⟩ | ⟨rfl, hnone⟩
    · exact .inl hsame
    · exact .inr (.inl ⟨v, es, hs, hv⟩)
    · exact .inr (.inr ⟨es, hs, hnone⟩)

/-- Settles O53: the two cases in which an entry does not read as before. -/
theorem onlyHostWritesChangeTable : Obligations.OnlyHostWritesChangeTable :=
  fun _ _ a h hne => (step_lutAt_cases h a).resolve_left hne

/-- Settles O55: an entry that changes without a reset holds the value written. -/
theorem definedEntriesStayDefined : Obligations.DefinedEntriesStayDefined := by
  intro s t a hno h hdef
  rcases step_lutAt_cases h a with hsame | ⟨v, -, -, hv⟩ | ⟨es, hs, -⟩
  · rwa [hsame]
  · simp [hv]
  · exact absurd hs (hno es)

/-! ### The residuals -/

/-- Everything an event that answers can have done to an entry of `RES`. -/
theorem Effect.resAt_cases {s t : State} {e : Event} (h : Effect s e t) (x : Nat) :
    t.resAt x = s.resAt x ∨ e = .resWrite x (t.resAt x) ∨ (e = .reset ∧ t.resAt x = 0#16) ∨
      ∃ v, t.resAt x = (quantLane v (s.resAt x)).res ∧ ∃ q slot, ∃ a b : Weight, ∃ p n : Pixel, ∃ c,
        e = .request q ∧ decode q = .op (.update slot a b p n) ∧ x = resAddr slot.toNat c := by
  cases h with
  | @update q slot a b p n l hq hslot hw hl =>
    rcases State.resAt_commit s slot l x with ⟨c, rfl, hnew⟩ | ⟨-, hold⟩
    · obtain ⟨v, -, hlane⟩ := (State.updateLane_eq_some_iff ..).1 (hl c)
      exact .inr (.inr (.inr ⟨v, hlane ▸ hnew, q, slot, a, b, p, n, c, rfl, hq, rfl⟩))
    · exact .inl hold
  | @resWrite y v hy =>
    by_cases hxy : x = y
    · subst hxy; rw [State.resAt_writeResAt_same]; exact .inr (.inl rfl)
    · exact .inl (State.resAt_writeResAt_ne s v hxy)
  | reset => exact .inr (.inr (.inl ⟨rfl, rfl⟩))
  | interp | lutWrite | lutRead | resRead | readResponse | readNothing => exact .inl rfl

/-- Everything a step that answers can have done to an entry of `RES`. -/
theorem step_resAt_cases {s t : State} (h : step s = .next t) (x : Nat) :
    t.resAt x = s.resAt x ∨ (∃ es, s.stream = .resWrite x (t.resAt x) :: es) ∨
      (∃ es, s.stream = .reset :: es ∧ t.resAt x = 0#16) ∨
      ∃ v, t.resAt x = (quantLane v (s.resAt x)).res ∧ ∃ q es slot, ∃ a b : Weight, ∃ p n : Pixel, ∃ c,
        s.stream = .request q :: es ∧ decode q = .op (.update slot a b p n) ∧ x = resAddr slot.toNat c := by
  rcases step_next_effect h with ⟨-, rfl⟩ | ⟨e, es, hs, he⟩
  · exact .inl rfl
  · rcases he.resAt_cases x with
      hsame | rfl | ⟨rfl, hzero⟩ | ⟨v, hv, q, slot, a, b, p, n, c, rfl, hq, hx⟩
    · exact .inl hsame
    · exact .inr (.inl ⟨es, hs⟩)
    · exact .inr (.inr (.inl ⟨es, hs, hzero⟩))
    · exact .inr (.inr (.inr ⟨v, hv, q, es, slot, a, b, p, n, c, hs, hq, hx⟩))

/-- Settles O54: the cases in which a residual does not read as before; the address names the slot. -/
theorem onlyOwnersChangeResidual : Obligations.OnlyOwnersChangeResidual := by
  intro s t m c h hne
  rcases step_resAt_cases h (resAddr m c) with
    hsame | ⟨es, hs⟩ | ⟨es, hs, hzero⟩ | ⟨v, -, q, es, slot, a, b, p, n, d, hs, hq, haddr⟩
  · exact absurd hsame hne
  · exact .inl ⟨_, es, hs, rfl⟩
  · exact .inr (.inl ⟨es, hs, hzero⟩)
  · exact .inr (.inr ⟨q, es, slot, a, b, p, n, hs, hq, (resAddr_inj haddr).1.symm⟩)

/-- A zero residual lies in the band. -/
theorem inBand_zero : inBand 0#16 := by
  unfold inBand
  decide

/-- R22 (b): what a step leaves in an entry of `RES` is in the band if what was there and what the host writes is. -/
theorem step_keeps_resBand {s t : State} (hs : s.BandInv) (h : step s = .next t) : t.ResBand := by
  obtain ⟨hband, hstream⟩ := hs
  intro x
  rcases step_resAt_cases h x with hsame | ⟨es, hw⟩ | ⟨-, -, hzero⟩ | ⟨v, hv, -⟩
  · rw [hsame]; exact hband x
  · have hkeeps : (Event.resWrite x (t.resAt x)).KeepsBand := hstream _ (by simp [hw])
    exact hkeeps
  · rw [hzero]; exact inBand_zero
  · rw [hv]; exact inBand_quantLane_res (hband x)

/-- Settles O52: the residuals by `step_keeps_resBand`; the events to come were to come before. -/
theorem stepKeepsResidualBand : Obligations.StepKeepsResidualBand := by
  intro s t hs h
  have hband := step_keeps_resBand hs h
  obtain ⟨-, hstream⟩ := hs
  refine ⟨hband, fun e he => hstream e ?_⟩
  rw [step_next_stream h] at he
  exact List.mem_of_mem_tail he

/-- Settles O51. -/
theorem resetInResidualBand : Obligations.ResetInResidualBand :=
  ⟨fun a => (State.resAt_reset a).symm ▸ inBand_zero, fun e he => by simp at he⟩

/-! ### The canonical form -/

theorem Effect.memWf {s t : State} {e : Event} (h : Effect s e t) (hs : s.memWf Config.nSlots = true) :
    t.memWf Config.nSlots = true := by
  cases h with
  | @update q slot a b p n l hq hslot hw hl => exact State.memWf_commit slot l hs hslot
  | @lutWrite a v ha => exact State.memWf_writeLutAt v hs ha
  | @resWrite a v ha => exact State.memWf_writeResAt v hs ha
  | reset => rfl
  | interp | lutRead | resRead | readResponse | readNothing => exact hs

/-- Settles O50: the entries written lie inside their spaces. -/
theorem stepKeepsMemoryCanonical : Obligations.StepKeepsMemoryCanonical := by
  intro s t hs h
  rcases step_next_effect h with ⟨-, rfl⟩ | ⟨e, es, -, he⟩
  · exact hs
  · exact he.memWf hs

/-- Settles O49: both memories are empty. -/
theorem resetMemoryCanonical : Obligations.ResetMemoryCanonical := rfl

end Sys2Proof.Machine
end

section
/-! SUPPORT. The host port and the step: requests, the four accesses, the table directive and reset
(spec/20_memory.md R42, R44, R48, R49; spec/30_encoding.md R71; spec/70_reset_and_hazards.md R151). -/

namespace Sys2Proof.Machine

/-! ### Requests and reset -/

/-- Settles O9: the three cases of the stream. -/
theorem stepRunsDecodedRequest : Obligations.StepRunsDecodedRequest :=
  fun _ _ => ⟨fun _ _ hs hq => step_request hs hq, fun _ _ hs hq => step_request_invalid hs hq, step_of_nil⟩

theorem decodeTableWord_eq_some_iff (nbits w : Nat) (i : Instr) :
    decodeTableWord nbits w = some i ↔ decode (tableRequest nbits w) = .op i := by
  unfold decodeTableWord
  rcases decode (tableRequest nbits w) with j | why <;> simp

/-- Settles O10: the placed request stands first, and taking it gives the state back. -/
theorem placedRequestRunsNext : Obligations.PlacedRequestRunsNext := by
  intro s nbits w i h
  exact step_request (s := s.withFetchWord nbits w) rfl ((decodeTableWord_eq_some_iff ..).1 h)

/-- Settles O47: after the reset event both memories are empty. -/
theorem resetEventClears : Obligations.ResetEventClears :=
  fun _ _ hs => ⟨_, step_of_effect hs .reset, fun _ _ => rfl, fun _ _ => rfl⟩

/-- Settles O56, by whether a response is waiting. -/
theorem hostReadsResponses : Obligations.HostReadsResponses :=
  fun _ _ hs => ⟨fun _ _ hr => step_of_effect hs (.readResponse hr), fun hr => step_of_effect hs (.readNothing hr)⟩

/-! ### The addresses of `RES` -/

/-- Every address of `RES` is a channel's of some slot. -/
theorem exists_resAddr_eq (a : Nat) : ∃ n c, resAddr n c = a := by
  have hmod : a % 3 = 0 ∨ a % 3 = 1 ∨ a % 3 = 2 := by omega
  rcases hmod with h | h | h
  · exact ⟨a / 3, .red, by rw [resAddr_eq, code_red]; omega⟩
  · exact ⟨a / 3, .green, by rw [resAddr_eq, code_green]; omega⟩
  · exact ⟨a / 3, .blue, by rw [resAddr_eq, code_blue]; omega⟩

/-- Settles O43: quotient and remainder by 3 are the slot and the channel. -/
theorem residualAddresses : Obligations.ResidualAddresses := by
  refine ⟨fun n => ?formula, fun n c hn => resAddr_lt c hn, fun a ha => ?oneEntry⟩
  case formula => simp [resAddr_eq]
  case oneEntry =>
    obtain ⟨n, c, rfl⟩ := exists_resAddr_eq a
    have hn : n < Config.nSlots := by
      rw [resAddr_eq] at ha
      omega
    refine ⟨(n, c), ⟨hn, rfl⟩, fun ⟨m, d⟩ ⟨_, hd⟩ => ?_⟩
    obtain ⟨rfl, rfl⟩ := resAddr_inj hd
    rfl

/-! ### The four accesses -/

theorem hostLutWrite_out {n a : Nat} (h : 771 ≤ a) (v : Word) (s : State) :
    hostLutWrite n a v s = .refused .hostAddressOutOfRange := if_neg (Nat.not_lt.2 h)

theorem hostLutRead_out {n a : Nat} (h : 771 ≤ a) (s : State) :
    hostLutRead n a s = .refused .hostAddressOutOfRange := if_neg (Nat.not_lt.2 h)

theorem hostResWrite_out {n a : Nat} (h : 3 * n ≤ a) (v : Word) (s : State) :
    hostResWrite n a v s = .refused .hostAddressOutOfRange := if_neg (Nat.not_lt.2 h)

theorem hostResRead_out {n a : Nat} (h : 3 * n ≤ a) (s : State) :
    hostResRead n a s = .refused .hostAddressOutOfRange := if_neg (Nat.not_lt.2 h)

theorem hostLutRead_undefined {n a : Nat} {s : State} (ha : a < 771) (h : s.lutAt a = none) :
    hostLutRead n a s = .refused .hostReadUndefined := by
  rw [hostLutRead, Space.size_lut, if_pos ha, h]

/-- Settles O41: the four range checks. -/
theorem hostAddressOutOfRange : Obligations.HostAddressOutOfRange := by
  refine fun s es a v => ⟨fun ha hs => ?table, fun ha hs => ?residuals⟩
  case table =>
    rcases hs with hs | hs
    · exact (step_of_cons hs).trans (hostLutWrite_out ha v _)
    · exact (step_of_cons hs).trans (hostLutRead_out ha _)
  case residuals =>
    have ha' : 3 * Config.nSlots ≤ a := by omega
    rcases hs with hs | hs
    · exact (step_of_cons hs).trans (hostResWrite_out ha' v _)
    · exact (step_of_cons hs).trans (hostResRead_out ha' _)

/-- Settles O40: each access by its effect; the entry written reads as the value, and every other as before. -/
theorem hostAccessEffects : Obligations.HostAccessEffects := by
  intro s es c v
  have inLut {i : Nat} (hi : i ≤ 256) : lutAddr c i < 771 := lutAddr_lt 0 c (Nat.lt_succ_of_le hi)
  refine ⟨fun i hi hs => ?lutWrite, fun i hi hs hv => ?lutRead, fun i hi hs hv => ?lutUndefined,
    fun n hn hs => ?resWrite, fun n hn hs => ?resRead⟩
  case lutWrite =>
    exact ⟨_, step_of_effect hs (.lutWrite (inLut hi)), State.lutAt_writeLutAt_same ..,
      fun a ha => State.lutAt_writeLutAt_ne _ v ha, rfl, rfl, rfl, rfl⟩
  case lutRead => exact step_of_effect hs (.lutRead (inLut hi) hv)
  case lutUndefined => exact (step_of_cons hs).trans (hostLutRead_undefined (inLut hi) hv)
  case resWrite =>
    exact ⟨_, step_of_effect hs (.resWrite (resAddr_lt c hn)), State.resAt_writeResAt_same ..,
      fun a ha => State.resAt_writeResAt_ne _ v ha, rfl, rfl, rfl, rfl⟩
  case resRead => exact step_of_effect hs (.resRead (resAddr_lt c hn))

/-! ### Runs of table writes -/

/-- A run of host writes to entries `is` of channel `c` leaves in each the value `f` has there, and changes nothing
else but the stream. -/
theorem runSteps_lutWrites (c : Channel) (f : Nat → Word) {is : List Nat} {es : List Event} {s : State}
    (his : ∀ i ∈ is, i ≤ 256) (hs : s.stream = is.map (fun i => .lutWrite (lutAddr c i) (f i)) ++ es) :
    ∃ t, runSteps is.length s = .next t ∧ (∀ i ∈ is, t.readLut c i = some (f i)) ∧
      (∀ a, (∀ i ∈ is, a ≠ lutAddr c i) → t.lutAt a = s.lutAt a) ∧ t.res = s.res ∧ t.stream = es := by
  induction is generalizing s with
  | nil => exact ⟨s, rfl, by simp, fun _ _ => rfl, rfl, hs⟩
  | cons i is ih =>
    rw [List.forall_mem_cons] at his
    obtain ⟨hi, his⟩ := his
    have hstep := step_lutWrite hs (lutAddr_lt 0 c (Nat.lt_succ_of_le hi))
    obtain ⟨t, hrun, hread, hframe, hres, hstream⟩ := ih his (s := (s.setStream _).writeLutAt (lutAddr c i) (f i)) rfl
    refine ⟨t, (runSteps_succ hstep).trans hrun, fun j hj => ?entry, fun a ha => ?frame, hres, hstream⟩
    case entry =>
      by_cases hmem : j ∈ is
      · exact hread j hmem
      · obtain rfl := (List.mem_cons.1 hj).resolve_right hmem
        have hother (k : Nat) (hk : k ∈ is) : lutAddr c j ≠ lutAddr c k := fun h =>
          hmem ((lutAddr_inj hi (his k hk) h).2 ▸ hk)
        exact (hframe _ hother).trans (State.lutAt_writeLutAt_same ..)
    case frame =>
      rw [List.forall_mem_cons] at ha
      exact (hframe a ha.2).trans (State.lutAt_writeLutAt_ne _ _ ha.1)

/-- Settles O45: the directive is the run of writes to the entries 0 to 256. -/
theorem tableDirectiveLoads : Obligations.TableDirectiveLoads := by
  intro s es c table hs
  have hrange {i : Nat} (hi : i ∈ List.range 257) : i ≤ 256 := Nat.le_of_lt_succ (List.mem_range.1 hi)
  obtain ⟨t, hrun, hread, hframe, hres, hstream⟩ :=
    runSteps_lutWrites c (fun i => table.toList.getD i 0#16) (fun i => hrange) hs
  rw [List.length_range] at hrun
  refine ⟨t, hrun, fun i hi => ?loaded, fun d i hd hi => ?others, hres, hstream⟩
  case loaded =>
    rw [hread i (List.mem_range.2 hi), List.getD_eq_getElem _ _ (by simpa using hi), Vector.getElem_toList]
  case others => exact hframe _ fun j hj h => hd (lutAddr_inj hi (hrange hj) h).1

end Sys2Proof.Machine
end

section
/-! SUPPORT. INTERP as an operation of the block: its frame, what it reads, its top input, and an INTERP that sees the
host's writes before it (spec/40_calibration_interpolator.md R81, R83, R86; spec/20_memory.md R46, R49). -/

namespace Sys2Proof.Machine

/-- R66: the response of INTERP has its intensity in bits 15:0 only. -/
theorem bits_zext24_high (v : Word) : bits (zext24 v).toNat 23 16 = 0 := by
  have hv := v.isLt
  rw [zext24_toNat]
  unfold bits
  omega

/-- Settles O12: an INTERP that answers only responds. -/
theorem interpFrame : Obligations.InterpFrame := by
  intro c a s t h
  obtain ⟨v, -, rfl⟩ := (execInterp_next_iff ..).1 h
  exact ⟨fun _ => rfl, fun _ => rfl, rfl, rfl, rfl, rfl, _, State.respond_responses .., bits_zext24_high v⟩

/-- R86: the interpolated intensity is read off the two entries and `alpha`. -/
theorem State.interpAt_congr_entries {s s' : State} {c d : Channel} {a b : Word} (halpha : tableAlpha a = tableAlpha b)
    (hlo : s.readLut c (tableIndex a) = s'.readLut d (tableIndex b))
    (hhi : s.readLut c (tableIndex a + 1) = s'.readLut d (tableIndex b + 1)) :
    s.interpAt c a = s'.interpAt d b := by
  unfold State.interpAt
  rw [hlo, hhi, halpha]

/-- Settles O17: both INTERPs respond with the one intensity. -/
theorem interpReadsTwoEntries : Obligations.InterpReadsTwoEntries := by
  intro c d a b s s' t halpha hlo hhi h
  rw [← tableIndex_eq, ← tableIndex_eq] at hlo hhi
  obtain ⟨v, hv, rfl⟩ := (execInterp_next_iff ..).1 h
  rw [State.interpAt_congr_entries halpha hlo hhi] at hv
  exact ⟨_, _, execInterp_of_some hv, State.respond_responses .., State.respond_responses ..⟩

/-- INTERP with both entries defined, the response as a number. -/
theorem execInterp_of_entries {s : State} {c : Channel} {a lo hi : Word}
    (hlo : s.readLut c (tableIndex a) = some lo) (hhi : s.readLut c (tableIndex a + 1) = some hi) :
    execInterp c a s = .next (s.respond
      (BitVec.ofNat 24 ((lo.toNat * (256 - tableAlpha a) + hi.toNat * tableAlpha a) / 256))) := by
  rw [execInterp_of_some (State.interpAt_of_entries hlo hhi), zext24_interpResult lo hi (tableAlpha_le a)]

/-- Settles O14: the top input selects entries 255 and 256, the latter with weight 255. -/
theorem interpTopBoundary : Obligations.InterpTopBoundary :=
  ⟨by decide, by decide, fun _ => Nat.mod_lt _ (by decide), fun _ _ _ _ hlo hhi => execInterp_of_entries hlo hhi,
    by decide⟩

/-- Settles O44: neither the second write nor the steps themselves disturb the first entry. -/
theorem operationSeesHostWrites : Obligations.OperationSeesHostWrites := by
  intro s es c a v w hs
  rw [← tableIndex_eq] at hs
  rw [← tableAlpha_eq]
  have hidx := tableIndex_lt a
  have hne : lutAddr c (tableIndex a) ≠ lutAddr c (tableIndex a + 1) := by
    rw [lutAddr_eq, lutAddr_eq]
    omega
  obtain ⟨writeFirst, -⟩ := hostAccessEffects s _ c v
  obtain ⟨t₁, hstep₁, hv, -, hres₁, hs₁, hresp₁, hobs₁⟩ := writeFirst (tableIndex a) hidx.le hs
  obtain ⟨writeSecond, -⟩ := hostAccessEffects t₁ _ c w
  obtain ⟨t₂, hstep₂, hw, hframe, hres₂, hs₂, hresp₂, hobs₂⟩ := writeSecond (tableIndex a + 1) hidx hs₁
  have hlo : t₂.readLut c (tableIndex a) = some v := (hframe _ hne).trans hv
  have hstep₃ := (step_request hs₂ (decode_encode_interp c a)).trans
    (execInterp_of_entries (s := t₂.setStream es) hlo hw)
  refine ⟨_, (runSteps_succ hstep₁).trans ((runSteps_succ hstep₂).trans (runSteps_succ hstep₃)), ?responses, rfl,
    hres₂.trans hres₁, hobs₂.trans hobs₁⟩
  case responses => rw [State.respond_responses, State.setStream_responses, hresp₂, hresp₁]

end Sys2Proof.Machine
end

section
/-! SUPPORT. The quantizer's regimes, the bytes of exact intensities, the packed word, and what a sequence of UPDATEs
of one slot conserves (spec/42_quantizer_error_feedback.md R102, R106, R109, R110). -/

namespace Sys2Proof.Machine

/-! ### Regimes -/

/-- Settles O23: the two thresholds of the byte split the range in three; the clamp's split each outer part. -/
theorem quantizerRegimes : Obligations.QuantizerRegimes := by
  rintro v r x rfl
  have low (h : inject v r < 128) := And.intro (quantLane_out_of_low h) (quantLane_res_of_low h)
  have high (h : 65152 ≤ inject v r) := And.intro (quantLane_out_of_high h) (quantLane_res_of_high h)
  refine ⟨fun h => low (by omega), fun _ h => low (by omega), fun h₁ h₂ => ?between, fun h₁ h₂ => ?unclamped,
    fun h => ?clamped⟩
  case between =>
    have hout : ((quantLane v r).out.toNat : Int) = (inject v r + 128) / 256 :=
      quantize_toNat_of_between h₁ (by omega)
    have hres := quantLane_res_of_between h₁ (by omega)
    exact ⟨hout, by omega, by omega, hres, by omega, by omega⟩
  case unclamped =>
    obtain ⟨hout, hres⟩ := high h₁
    exact ⟨hout, hres, by omega, by omega⟩
  case clamped =>
    obtain ⟨hout, hres⟩ := high (by omega)
    exact ⟨hout, hres, by omega⟩

/-! ### Exact bytes -/

/-- A lane is its byte and its residual, each given as a number. -/
theorem quantLane_eq_of_injected {v r i : Word} {x : Int} {k : Nat} (hx : inject v r = x)
    (hk : max 0 (min 255 ((x + 128) / 256)) = (k : Int)) (hi : i.toInt = x - 257 * k) :
    quantLane v r = ⟨BitVec.ofNat 8 k, i⟩ := by
  subst hx
  have hout : (quantLane v r).out.toNat = k := Int.ofNat_inj.1 ((quantize_toNat_eq_max_min _).trans hk)
  have hres : (quantLane v r).res = i := BitVec.eq_of_toInt_eq (by rw [quantLane_res_toInt, hout, hi])
  rw [← hout, ← hres, BitVec.ofNat_toNat, BitVec.setWidth_eq]

theorem inject_exactByte {k : Nat} (hk : k ≤ 255) (r : Word) :
    inject (BitVec.ofNat 16 (257 * k)) r = 257 * k + r.toInt := by
  rw [inject_eq, BitVec.toNat_ofNat]
  omega

/-- Settles O24: the injected value is `257 * k`, or `257 * (k - 1)` after a residual of -257. -/
theorem exactByteOutputs : Obligations.ExactByteOutputs := by
  have hzero : (0 : Word).toInt = 0 := by decide
  have hneg : (BitVec.ofInt 16 (-257)).toInt = -257 := by decide
  refine ⟨fun k hk => ?exact, fun k h₁ h₂ => ?roundedUp, fun k h₁ h₂ => ?next, by decide⟩
  case exact => exact quantLane_eq_of_injected (inject_exactByte (by omega) _) (by omega) (by omega)
  case roundedUp => exact quantLane_eq_of_injected (inject_exactByte (by omega) _) (by omega) (by omega)
  case next => exact quantLane_eq_of_injected (inject_exactByte (by omega) _) (by omega) (by omega)

/-- Settles O27, by evaluating the two inputs. -/
theorem quantizerIsNoWrongVariant : Obligations.QuantizerIsNoWrongVariant := by
  unfold Obligations.QuantizerIsNoWrongVariant
  decide

/-! ### The packed word -/

/-- Settles O29: the three bytes do not overlap, so or-ing them is adding them. -/
theorem packPlacesBytes : Obligations.PackPlacesBytes := by
  refine ⟨fun o => ⟨?word, outByte_pack .green o, outByte_pack .red o, outByte_pack .blue o⟩, by decide⟩
  case word =>
    have hr := o.red.isLt
    have hb := o.blue.isLt
    rw [pack_toNat, Nat.lor_assoc, ← Nat.shiftLeft_add_eq_or_of_lt (i := 8) hb,
      ← Nat.shiftLeft_add_eq_or_of_lt (i := 16) (by omega), Nat.shiftLeft_eq, Nat.shiftLeft_eq]
    omega

/-! ### Conservation -/

theorem calibratedOf_congr {s t : State} (h : s.lut = t.lut) (c : Channel) (i : Instr) :
    calibratedOf s c i = calibratedOf t c i := by
  cases i with
  | update slot a b p n => rw [calibratedOf, calibratedOf, State.interpAt_congr h]
  | interp => rfl

/-- One UPDATE of a slot: R105 with the calibrated intensity, the table as it was, and the band kept. -/
theorem exec_update_conserves {slot : Word} {i : Instr} {s t : State} (hi : isUpdateOf slot i = true)
    (h : exec i s = .next t) (c : Channel) :
    t.lut = s.lut ∧ (inBand (s.readRes slot.toNat c) → inBand (t.readRes slot.toNat c)) ∧
      ∃ w, t.responses = s.responses ++ [w] ∧
        257 * (outByte c w : Int) =
          calibratedOf s c i + (s.readRes slot.toNat c).toInt - (t.readRes slot.toNat c).toInt := by
  rcases exec_next_cases h with ⟨d, a, v, rfl, -, -⟩ | ⟨n, a, b, p, q, l, rfl, -, -, hl, rfl⟩
  · cases hi
  · obtain rfl : n = slot := of_decide_eq_true hi
    obtain ⟨v, hv, hlane⟩ := (State.updateLane_eq_some_iff ..).1 (hl c)
    have hcal : calibratedOf s c (.update n a b p q) = v.toNat := by rw [calibratedOf, hv]; rfl
    rw [State.readRes_commit, if_pos rfl, hlane, hcal]
    refine ⟨State.commit_lut .., inBand_quantLane_res, _, State.commit_responses .., ?_⟩
    have hexact := quantLane_exact v (s.readRes n.toNat c)
    rw [outByte_pack_lanes, hlane]
    omega

/-- R109, the telescoped sum of R105 over a sequence of UPDATEs. -/
theorem execAll_updates_conserve {slot : Word} (c : Channel) {ops : List Instr} {s t : State}
    (hops : ∀ i ∈ ops, isUpdateOf slot i = true) (h : execAll ops s = .next t) :
    (inBand (s.readRes slot.toNat c) → inBand (t.readRes slot.toNat c)) ∧
      ∃ ws : List Response, t.responses = s.responses ++ ws ∧ ws.length = ops.length ∧
        257 * (ws.map fun w => (outByte c w : Int)).sum =
          (ops.map (calibratedOf s c)).sum + (s.readRes slot.toNat c).toInt - (t.readRes slot.toNat c).toInt := by
  induction ops generalizing s with
  | nil =>
    cases h
    exact ⟨id, [], by simp⟩
  | cons i ops ih =>
    rw [List.forall_mem_cons] at hops
    obtain ⟨hi, hops⟩ := hops
    obtain ⟨u, hu⟩ : ∃ u, exec i s = .next u := by
      rcases hx : exec i s with u | f | r
      · exact ⟨u, rfl⟩
      · simp [execAll, hx] at h
      · simp [execAll, hx] at h
    rw [execAll_cons hu] at h
    obtain ⟨hlut, hband, w, hw, hsum⟩ := exec_update_conserves hi hu c
    obtain ⟨hband', ws, hws, hlen, hsum'⟩ := ih hops h
    refine ⟨hband' ∘ hband, w :: ws, by simp [hws, hw], by simp [hlen], ?_⟩
    have hcal : ops.map (calibratedOf u c) = ops.map (calibratedOf s c) :=
      List.map_congr_left fun j _ => calibratedOf_congr hlut c j
    rw [hcal] at hsum'
    rw [List.map_cons, List.sum_cons, List.map_cons, List.sum_cons]
    omega

/-- R109, the mean: 257 times a sum of `n` outputs differs from `n * v` by the difference of two residuals of the
band, at most 510. -/
theorem mean_near_of_conserved {S v r r' : Int} {n : Nat} (hn : 0 < n) (hS : 257 * S = n * v + r - r')
    (hr : -383 ≤ r ∧ r ≤ 127) (hr' : -383 ≤ r' ∧ r' ≤ 127) :
    |(S : ℚ) / n - v / 257| ≤ 510 / (257 * n) := by
  have hn' : (0 : ℚ) < n := by exact_mod_cast hn
  have hdiff : (257 * S - n * v : ℚ) = ((r - r' : Int) : ℚ) := by exact_mod_cast (by omega : 257 * S - n * v = r - r')
  have heq : (S : ℚ) / n - v / 257 = ((r - r' : Int) : ℚ) / (257 * n) := by
    rw [← hdiff]
    field_simp
  have hbound : |((r - r' : Int) : ℚ)| ≤ 510 := by
    rw [← Int.cast_abs]
    exact_mod_cast abs_le.2 (by omega : -510 ≤ r - r' ∧ r - r' ≤ 510)
  rw [heq, abs_div, abs_of_pos (by positivity : (0 : ℚ) < 257 * n)]
  exact div_le_div_of_nonneg_right hbound (by positivity)

/-- Settles O30: the telescoped sum, and the band for the residual at both ends. -/
theorem conservationOverUpdates : Obligations.ConservationOverUpdates := by
  intro ops slot c s t hops h
  obtain ⟨hband, ws, hws, hlen, hsum⟩ := execAll_updates_conserve c hops h
  refine ⟨ws, hws, hlen, hsum, fun v hr hv hn => ?mean⟩
  case mean =>
    have hconst : (ops.map (calibratedOf s c)).sum = ops.length * v := by
      rw [List.map_congr_left hv, List.map_const', List.sum_replicate, nsmul_eq_mul]
    have hcast : (ws.map fun w => (outByte c w : ℚ)).sum = ((ws.map fun w => (outByte c w : Int)).sum : Int) := by
      simp [Function.comp_def]
    rw [hconst] at hsum
    rw [hcast]
    exact mean_near_of_conserved hn hsum hr (hband hr)

end Sys2Proof.Machine
end

section
/-! SUPPORT. Operations beside one another: independence of the channels, the orders in which operations commute, and
completion on a loaded table (spec/43_pixel_update.md R121; spec/20_memory.md R53; spec/70_reset_and_hazards.md
R152). -/

namespace Sys2Proof.Machine

/-! ### Independence of the channels -/

/-- R121: one channel's lane in two UPDATEs that may differ in everything else. -/
theorem State.updateLane_congr_channel {s s' : State} {slot slot' : Word} {a b : Weight} {p n p' n' : Pixel}
    {c : Channel} (hp : p.get c = p'.get c) (hn : n.get c = n'.get c)
    (hlut : ∀ i, i ≤ 256 → s.readLut c i = s'.readLut c i)
    (hres : s.readRes slot.toNat c = s'.readRes slot'.toNat c) :
    s.updateLane slot a b p n c = s'.updateLane slot' a b p' n' c := by
  have hinterp (x : Word) : s.interpAt c x = s'.interpAt c x :=
    State.interpAt_congr_entries rfl (hlut _ (tableIndex_lt x).le) (hlut _ (tableIndex_lt x))
  unfold State.updateLane
  rw [hp, hn, hinterp, hres]

/-- Settles O35: the residual and the byte of a channel are those of its lane. -/
theorem channelsAreIndependent : Obligations.ChannelsAreIndependent := by
  intro c slot slot' a b p n p' n' s s' t t' hp hn hlut hres h h'
  obtain ⟨-, -, l, hl, rfl⟩ := (updateWith_next_iff ..).1 h
  obtain ⟨-, -, l', hl', rfl⟩ := (updateWith_next_iff ..).1 h'
  have hlane : l.get c = l'.get c := Option.some.inj <|
    (hl c).symm.trans ((State.updateLane_congr_channel hp hn hlut hres).trans (hl' c))
  refine ⟨?_, _, _, State.commit_responses .., State.commit_responses .., ?_⟩
  · rw [State.readRes_commit, State.readRes_commit, if_pos rfl, if_pos rfl, hlane]
  · rw [outByte_pack_lanes, outByte_pack_lanes, hlane]

/-! ### Two UPDATEs of different slots -/

/-- A lane of one slot does not see the commit of another. -/
theorem State.updateLane_commit {s : State} {n m : Word} (h : m ≠ n) (l : PerChannel Lane) (a b : Weight) (p q : Pixel)
    (c : Channel) : (s.commit n l).updateLane m a b p q c = s.updateLane m a b p q c := by
  unfold State.updateLane
  rw [State.interpAt_congr (State.commit_lut s n l), State.readRes_commit, if_neg (mt BitVec.eq_of_toNat_eq h)]

theorem State.resAt_commit_comm (s : State) {n m : Word} (h : n ≠ m) (l l' : PerChannel Lane) (x : Nat) :
    ((s.commit n l).commit m l').resAt x = ((s.commit m l').commit n l).resAt x := by
  obtain ⟨i, c, rfl⟩ := exists_resAddr_eq x
  change State.readRes _ i c = State.readRes _ i c
  simp only [State.readRes_commit]
  by_cases hi : i = m.toNat
  · subst hi
    simp [(mt BitVec.eq_of_toNat_eq h.symm : m.toNat ≠ n.toNat)]
  · simp [hi]

/-- Every address of `RES` reads as some value. -/
theorem Memory.read_res_eq_some_resAt (s : State) (a : Nat) : s.res.read .res a = some (s.resAt a) := by
  unfold State.resAt Memory.read
  rcases s.res.find a with _ | w <;> rfl

/-- Canonical states whose residuals read the same hold the same residual store. -/
theorem State.res_eq_of_resAt_eq {s t : State} {k : Nat} (hs : s.memWf k = true) (ht : t.memWf k = true)
    (h : ∀ a, s.resAt a = t.resAt a) : s.res = t.res := by
  rw [State.memWf_iff] at hs ht
  exact Memory.eq_of_read_eq hs.2 ht.2 fun a => by
    rw [Memory.read_res_eq_some_resAt, Memory.read_res_eq_some_resAt, h]

/-- Settles O36: neither commit disturbs the other's lanes, and the two commits write different entries. -/
theorem updatesOfDifferentSlotsCommute : Obligations.UpdatesOfDifferentSlotsCommute := by
  refine ⟨fun _ _ _ _ _ _ => rfl, fun k n m a b c d p q u v s s₁ t hne hwf h₁ h₂ => ?_⟩
  obtain ⟨hn, hab, l, hl, rfl⟩ := (updateWith_next_iff ..).1 h₁
  obtain ⟨hm, hcd, l', hl', rfl⟩ := (updateWith_next_iff ..).1 h₂
  simp only [State.updateLane_commit hne.symm] at hl'
  have hlater (e : Channel) : (s.commit m l').updateLane n a b p q e = some (l.get e) := by
    rw [State.updateLane_commit hne, hl]
  have hres : ((s.commit m l').commit n l).res = ((s.commit n l).commit m l').res :=
    State.res_eq_of_resAt_eq (State.memWf_commit n l (State.memWf_commit m l' hwf hm) hn)
      (State.memWf_commit m l' (State.memWf_commit n l hwf hn) hm) (State.resAt_commit_comm s hne.symm l' l)
  exact ⟨_, _, _, _, updateWith_of_lanes hm hcd hl', updateWith_of_lanes hn hab hlater, hres, rfl,
    State.commit_responses .., by simp, State.commit_responses .., by simp⟩

/-! ### INTERP and any operation -/

theorem exec_next_lut {i : Instr} {s t : State} (h : exec i s = .next t) : t.lut = s.lut := by
  rcases exec_next_cases h with ⟨_, _, _, _, _, rfl⟩ | ⟨_, _, _, _, _, _, _, _, _, _, rfl⟩ <;> rfl

theorem State.res_commit_congr {s t : State} (h : s.res = t.res) (slot : Word) (l : PerChannel Lane) :
    (s.commit slot l).res = (t.commit slot l).res := by
  change State.res (State.writeSlot ..) = State.res (State.writeSlot ..)
  simp only [State.writeSlot, State.writeRes_res, h]

/-- R12: an operation is a function of the two memories, and its response goes to the end of those before. -/
theorem exec_next_of_same_memories {i : Instr} {s s' t : State} (h : exec i s = .next t) (hlut : s.lut = s'.lut)
    (hres : s.res = s'.res) :
    ∃ w t', exec i s' = .next t' ∧ t.responses = s.responses ++ [w] ∧ t'.responses = s'.responses ++ [w] ∧
      t'.res = t.res ∧ t'.lut = t.lut := by
  rcases exec_next_cases h with ⟨c, a, v, rfl, hv, rfl⟩ | ⟨slot, a, b, p, n, l, rfl, hslot, hw, hl, rfl⟩
  · rw [State.interpAt_congr hlut] at hv
    exact ⟨_, _, execInterp_of_some hv, State.respond_responses .., State.respond_responses .., hres.symm, hlut.symm⟩
  · have hl' (c : Channel) : s'.updateLane slot a b p n c = some (l.get c) := by
      rw [← hl c, State.updateLane, State.updateLane, State.interpAt_congr hlut, State.readRes_congr hres]
    exact ⟨_, _, updateWith_of_lanes hslot hw hl', State.commit_responses .., State.commit_responses ..,
      State.res_commit_congr hres.symm slot l, hlut.symm⟩

/-- Settles O37: INTERP changes neither memory, and no operation changes the table INTERP reads. -/
theorem interpCommutesWithEveryOperation : Obligations.InterpCommutesWithEveryOperation := by
  refine fun c a i s s₁ t => ⟨fun h₁ h₂ => ?interpFirst, fun h₁ h₂ => ?interpSecond⟩
  case interpFirst =>
    obtain ⟨v, hv, rfl⟩ := (execInterp_next_iff ..).1 h₁
    obtain ⟨w, s₂, h, ht, hs₂, hres, hlut⟩ := exec_next_of_same_memories h₂ (s' := s) rfl rfl
    have hv₂ : s₂.interpAt c a = some v := (State.interpAt_congr (exec_next_lut h) c a).trans hv
    exact ⟨s₂, _, zext24 v, w, h, execInterp_of_some hv₂, hres, hlut, by simp [ht], by simp [hs₂]⟩
  case interpSecond =>
    obtain ⟨v, hv, rfl⟩ := (execInterp_next_iff ..).1 h₂
    have hv₂ : s.interpAt c a = some v := (State.interpAt_congr (exec_next_lut h₁) c a).symm.trans hv
    obtain ⟨w, t', h, hs₁, ht', hres, hlut⟩ := exec_next_of_same_memories h₁ (s' := s.respond (zext24 v)) rfl rfl
    exact ⟨_, t', w, zext24 v, execInterp_of_some hv₂, h, hres, hlut, by simp [hs₁], by simp [ht']⟩

/-! ### Two UPDATEs of one slot -/

/-- A block whose red table gives 200 for the byte 0 and 65400 for the byte 1, and 0 in the other channels. -/
def twoIntensities : State :=
  ⟨[], [(0, 200), (1, 65400), (2, 65400), (257, 0), (258, 0), (514, 0), (515, 0)], [], [], []⟩

/-- An UPDATE of slot 0 with the red byte `x` at full weight. -/
def updateRed (x : Byte) : Instr := .update 0 0x1010000 0 ⟨x, 0, 0⟩ ⟨0, 0, 0⟩

/-- Settles O38: 200 and then 65400 leave the residual -192, but 65400 and then 200 leave 65, where the 200 no longer
rounds up to the byte 1. -/
theorem sameSlotUpdatesNeedNotCommute : Obligations.SameSlotUpdatesNeedNotCommute :=
  ⟨twoIntensities, updateRed 0, updateRed 1, _, _, .red, rfl, rfl, rfl, rfl, by decide⟩

/-! ### Completion on a loaded table -/

theorem wellFormed_update_iff (k : Nat) (slot : Word) (a b : Weight) (p n : Pixel) :
    (Instr.update slot a b p n).wellFormed k = true ↔ slot.toNat < k ∧ a.toNat + b.toNat = 16842752 := by
  rw [Instr.wellFormed, Bool.and_eq_true, slotInRange_iff, weightsSum_iff]

section
variable {s : State} (hloaded : ∀ c k, k ≤ 256 → s.readLut c k ≠ none)
include hloaded

theorem State.interpAt_of_loaded (c : Channel) (a : Word) : ∃ v, s.interpAt c a = some v := by
  obtain ⟨lo, hlo⟩ := Option.ne_none_iff_exists'.1 (hloaded c _ (tableIndex_lt a).le)
  obtain ⟨hi, hhi⟩ := Option.ne_none_iff_exists'.1 (hloaded c _ (tableIndex_lt a))
  exact ⟨_, State.interpAt_of_entries hlo hhi⟩

theorem exec_of_loaded {i : Instr} (hi : i.wellFormed Config.nSlots = true) : ∃ t, exec i s = .next t := by
  cases i with
  | update slot a b p n =>
    obtain ⟨hslot, hw⟩ := (wellFormed_update_iff ..).1 hi
    have hlane (c : Channel) : ∃ l, s.updateLane slot a b p n c = some l := by
      obtain ⟨v, hv⟩ := State.interpAt_of_loaded hloaded c (blendWord (p.get c) (n.get c) a b)
      exact ⟨_, (State.updateLane_eq_some_iff ..).2 ⟨v, hv, rfl⟩⟩
    obtain ⟨l, hl⟩ := PerChannel.exists_get hlane
    exact ⟨_, updateWith_of_lanes hslot hw hl⟩
  | interp c a =>
    obtain ⟨v, hv⟩ := State.interpAt_of_loaded hloaded c a
    exact ⟨_, execInterp_of_some hv⟩

end

/-- Settles O39: a loaded table answers every interpolation, and no operation changes it. -/
theorem loadedBlockCompletes : Obligations.LoadedBlockCompletes := by
  intro i s hloaded hi
  obtain ⟨t, ht⟩ := exec_of_loaded hloaded hi
  refine ⟨t, ht, fun c k hk => ?_⟩
  rw [State.readLut_congr (exec_next_lut ht)]
  exact hloaded c k hk

end Sys2Proof.Machine
end

section
/-! SUPPORT. Runs and their marks: how runs compose, that marks only grow, that an unmarked run is a run of steps, and
what a whole run works off (spec/60_exceptions.md R131; spec/70_reset_and_hazards.md R158). -/

namespace Sys2Proof.Machine

/-! ### Marks -/

theorem Run.steps_add (j k : Nat) (r : Run) : Run.steps (j + k) r = Run.steps k (Run.steps j r) := by
  induction j generalizing r with
  | zero => rw [Nat.zero_add]; rfl
  | succ j ih => rw [Nat.succ_add]; exact ih r.advance

theorem Run.advance_marks (r : Run) : ∃ more, r.advance.marks = r.marks ++ more ∧ more.length ≤ 1 := by
  rcases r.advance_cases with ⟨t, -, h⟩ | ⟨m, -, h⟩
  · exact ⟨[], by simp [h]⟩
  · exact ⟨[m], by simp [h, Run.marked]⟩

theorem Run.steps_marks (k : Nat) (r : Run) :
    ∃ more, (Run.steps k r).marks = r.marks ++ more ∧ more.length ≤ k := by
  induction k generalizing r with
  | zero => exact ⟨[], by simp [Run.steps]⟩
  | succ k ih =>
    obtain ⟨first, hfirst, hle⟩ := r.advance_marks
    obtain ⟨more, hmore, hle'⟩ := ih r.advance
    refine ⟨first ++ more, ?_, by rw [List.length_append]; omega⟩
    rw [Run.steps, hmore, hfirst, List.append_assoc]

/-- Settles O57: one step by the machine's outcome, and the runs of `k` steps by induction. -/
theorem runMarksAccumulate : Obligations.RunMarksAccumulate :=
  ⟨fun _ _ => ⟨fun _ h => Run.advance_of_next h, fun _ h => Run.advance_of_fault h,
      fun _ h => Run.advance_of_refused h⟩,
    Run.steps_add, Run.steps_marks⟩

/-! ### Unmarked runs -/

theorem runSteps_succ_next_iff (k : Nat) (s t : State) :
    runSteps (k + 1) s = .next t ↔ ∃ u, step s = .next u ∧ runSteps k u = .next t := by
  rw [runSteps]
  rcases step s with u | f | w <;> simp

theorem Run.steps_of_runSteps {k : Nat} {r : Run} {t : State} (h : runSteps k r.state = .next t) :
    Run.steps k r = ⟨t, r.marks⟩ := by
  induction k generalizing r with
  | zero => cases h; rfl
  | succ k ih =>
    obtain ⟨u, hu, ht⟩ := (runSteps_succ_next_iff ..).1 h
    rw [Run.steps, Run.advance_of_next hu]
    exact ih ht

/-- A run that has got a mark keeps more marks than it had. -/
theorem Run.steps_marked_marks_ne (k : Nat) (r : Run) (m : Mark) : (Run.steps k (r.marked m)).marks ≠ r.marks := by
  obtain ⟨more, hmore, -⟩ := Run.steps_marks k (r.marked m)
  rw [hmore, Run.marked]
  simp

theorem runSteps_of_steps_marks {k : Nat} {r : Run} (h : (Run.steps k r).marks = r.marks) :
    ∃ t, runSteps k r.state = .next t := by
  induction k generalizing r with
  | zero => exact ⟨r.state, rfl⟩
  | succ k ih =>
    rw [Run.steps] at h
    rcases r.advance_cases with ⟨u, hu, hadv⟩ | ⟨m, -, hadv⟩
    · rw [hadv] at h
      obtain ⟨t, ht⟩ := ih h
      exact ⟨t, (runSteps_succ hu).trans ht⟩
    · rw [hadv] at h
      exact absurd h (Run.steps_marked_marks_ne k r m)

/-- Settles O58: a step that does not answer leaves a mark for good. -/
theorem successfulRunsAreRunsOfSteps : Obligations.SuccessfulRunsAreRunsOfSteps :=
  fun _ _ => ⟨⟨runSteps_of_steps_marks, fun ⟨_, h⟩ => by rw [Run.steps_of_runSteps h]⟩,
    fun _ h => Run.steps_of_runSteps h⟩

/-! ### The stream worked off -/

theorem Run.advance_stream (r : Run) : r.advance.state.stream = r.state.stream.tail := by
  rcases r.advance_cases with ⟨t, ht, h⟩ | ⟨m, -, h⟩
  · rw [h]; exact step_next_stream ht
  · rw [h]; rfl

theorem Run.steps_stream (k : Nat) (r : Run) : (Run.steps k r).state.stream = r.state.stream.drop k := by
  induction k generalizing r with
  | zero => rfl
  | succ k ih => rw [Run.steps, ih, Run.advance_stream, List.drop_tail]

/-- The event is a request on the operation port. -/
def Event.isRequest : Event → Bool
  | .request _ => true
  | _ => false

/-- A step that takes an event delivers one response if it is a request, and none otherwise. -/
theorem step_delivers {s t : State} {e : Event} {es : List Event} (hs : s.stream = e :: es) (h : step s = .next t) :
    ∃ ws, t.delivered = s.delivered ++ ws ∧ ws.length = [e].countP Event.isRequest := by
  obtain ⟨hreq, hother⟩ := oneResponsePerRequest s t h
  cases e with
  | request q =>
    obtain ⟨w, hw⟩ := hreq q es hs
    exact ⟨[w], hw, rfl⟩
  | lutWrite | lutRead | resWrite | resRead | readResponse | reset =>
    exact ⟨[], by rw [List.append_nil]; exact hother fun q es' hq => by simp [hs] at hq, rfl⟩

/-- Steps that answer deliver one response for each request of the stream they work off. -/
theorem runSteps_delivers {es : List Event} {s t : State} (hs : s.stream = es)
    (h : runSteps es.length s = .next t) :
    ∃ ws, t.delivered = s.delivered ++ ws ∧ ws.length = es.countP Event.isRequest := by
  induction es generalizing s with
  | nil => cases h; exact ⟨[], by simp⟩
  | cons e es ih =>
    obtain ⟨u, hu, ht⟩ := (runSteps_succ_next_iff ..).1 h
    obtain ⟨ws, hws, hlen⟩ := step_delivers hs hu
    obtain ⟨ws', hws', hlen'⟩ := ih (s := u) (by rw [step_next_stream hu, hs]; rfl) ht
    refine ⟨ws ++ ws', by rw [hws', hws, List.append_assoc], ?_⟩
    rw [List.length_append, hlen, hlen', ← List.countP_append]
    rfl

/-- Settles O59: every step of a run moves the stream on, and an unmarked run is a run of steps. -/
theorem hostStreamIsWorkedOff : Obligations.HostStreamIsWorkedOff := by
  intro r
  refine ⟨(Run.steps_stream _ r).trans List.drop_length, fun hmarks => ?delivered⟩
  case delivered =>
    obtain ⟨t, ht⟩ := runSteps_of_steps_marks hmarks
    rw [Run.finish, Run.steps_of_runSteps ht]
    exact runSteps_delivers rfl ht

end Sys2Proof.Machine
end
